-- ==== Sys2Proof/Word.lean ====
section
/-! DEFINITION. The word types of the radix64 CORE: everything the spec treats as bits. Every value is unsigned (R9, R110). -/

namespace Sys2Proof

/-- A byte: 8 bits (R9). -/
abbrev Byte := BitVec 8

/-- The word `W`: 64 bits, assembled big-endian from 8 window bytes (R69, R101). -/
abbrev Word := BitVec 64

/-- A 6-bit value, the only legal index into the alphabet table (R104). -/
abbrev Group := BitVec 6

/-- The 512-bit port `alpha_tbl` that carries the alphabet table (R66). -/
abbrev AlphaTbl := BitVec 512

end Sys2Proof
end

