-- ==== Sys2Proof/Config.lean ====
section
/-! DEFINITION. What an implementation fixes: the parameters of R6 (with their values), the open parameters of R7 (constants
without a value, so that every statement holds for every value of them), and the free values of R161. -/

namespace Sys2Proof

/-- `ICS`: bytes in one input window (R6). -/
abbrev Config.ICS : Nat := 26

/-- `IST`: bytes the input cursor advances per block (R6). -/
abbrev Config.IST : Nat := 24

/-- `OCS`: bytes in one output window (R6). -/
abbrev Config.OCS : Nat := 32

/-- `OST`: bytes the output cursor advances per block (R6). -/
abbrev Config.OST : Nat := 32

/-- `NSUB`: sub-chunks per block (R6). -/
abbrev Config.NSUB : Nat := 4

/-- `SUBIN`: input bytes between the starts of consecutive sub-chunk reads (R6). -/
abbrev Config.SUBIN : Nat := 6

/-- `WBYTES`: bytes in one word read (R6). -/
abbrev Config.WBYTES : Nat := 8

/-- `WBITS`: bits in the word `W` (R6). -/
abbrev Config.WBITS : Nat := 64

/-- `NGRP`: groups cut from one word (R6). -/
abbrev Config.NGRP : Nat := 8

/-- `GBITS`: bits per group (R6). -/
abbrev Config.GBITS : Nat := 6

/-- `NALPHA`: entries in the alphabet table (R6). -/
abbrev Config.NALPHA : Nat := 64

/-- What `AW` has above its least value 6. DESIGN CHOICE (notes/assumptions/1.md), safe: a constant without a value, R7 leaves it open. -/
opaque Config.awExtra : Nat

/-- `AW`: the width in bits of a length or an offset, any number from 6 up (R7). -/
def Config.AW : Nat := 6 + Config.awExtra

/-- What `L_INIT` has above its least value 1 (R7; no rule depends on it, R173). -/
opaque Config.lInitExtra : Nat

/-- `L_INIT`: clock cycles from the acceptance of an INIT to its response (R7, R173). The model carries no time. -/
def Config.lInit : Nat := 1 + Config.lInitExtra

/-- What `L_STEP` has above its least value 1 (R7; no rule depends on it, R173). -/
opaque Config.lStepExtra : Nat

/-- `L_STEP`: clock cycles from the acceptance of a STEP to its response (R7, R173). The model carries no time. -/
def Config.lStep : Nat := 1 + Config.lStepExtra

/-- What `L_REM` has above its least value 1 (R7; no rule depends on it, R173). -/
opaque Config.lRemExtra : Nat

/-- `L_REM`: clock cycles from the acceptance of a REM to its response (R7, R173). The model carries no time. -/
def Config.lRem : Nat := 1 + Config.lRemExtra

/-- The draw of R161, a FREE VALUE: at draw number `k`, does the byte of `OUT` at this offset, which a command aborted by a
reset was going to write, hold the value the command would have written (`true`) or the one it had before (`false`)?
"with no promise which" (R161). UNVERIFIED which (notes/assumptions/9.md), safe: nothing constrains it. -/
opaque Config.abortedByteWritten : Nat → Nat → Bool

/-- What a byte of `IN` or `OUT` that nothing has written reads as. R32 calls the contents after reset unspecified.
DESIGN CHOICE (notes/assumptions/3.md), unsafe: no statement rests on it. -/
abbrev Config.unlistedByte : Byte := 0x00#8

end Sys2Proof
end

