-- ==== Sys2Proof/Syntax.lean ====
section
/-! DEFINITION. The commands of the engine (R61): one constructor per row of spec/opcode_table.json. -/

namespace Sys2Proof

/-- The four commands (R61). Lengths are naturals; the port width bounds them (`Instr.WellFormed`, R62). -/
inductive Instr where
  /-- INIT `len_in`, `len_out` (R80): construct the iterator. -/
  | init (lenIn lenOut : Nat)
  /-- STEP (R120): encode the next block if there is one. -/
  | step
  /-- RUN (R123): encode every remaining full block. -/
  | run
  /-- REM (R88): report the remainders. -/
  | rem
  deriving DecidableEq, Repr

end Sys2Proof
end

