-- ==== Sys2Proof/WellFormed.lean ====
section
/-! DEFINITION. Which commands the command port can carry (R62): an operand is an unsigned `AW`-bit number. -/

namespace Sys2Proof

/-- A length an `AW`-bit port can carry: from 0 to `2^AW - 1` (R62). -/
abbrev FitsPort (n : Nat) : Prop := n < 2 ^ Config.AW

/-- Every value of each operand from 0 to `2^AW - 1` is legal, independently; STEP, RUN and REM have no operand (R62). -/
def Instr.WellFormed : Instr → Bool
  | .init a b => decide (FitsPort a) && decide (FitsPort b)
  | .step => true
  | .run => true
  | .rem => true

end Sys2Proof
end

