-- ==== Sys2Proof/Decode.lean ====
section
/-! DEFINITION. The command port's contents, the decoder (total: it never refuses, R64), the encoder (R61, R62), and the
reading of an opcode-table word. -/

namespace Sys2Proof

/-- What stands on the ports `cmd_op`, `cmd_len_in`, `cmd_len_out` when a command is presented (R60, R61). -/
structure CmdPort where
  /-- `cmd_op[1:0]`. -/
  op : BitVec 2
  /-- `cmd_len_in[AW-1:0]`. -/
  lenIn : BitVec Config.AW
  /-- `cmd_len_out[AW-1:0]`. -/
  lenOut : BitVec Config.AW
  deriving DecidableEq, Repr

/-- An operand port read as the number it carries: unsigned, not scaled, not shifted, not sign-extended (R62). -/
def portValue (p : BitVec Config.AW) : Nat := p.toNat

/-- The decoder of the command port: it reads the two bits of `cmd_op` (R61, R74); INIT alone uses the operand ports (R62). -/
def decode (c : CmdPort) : Instr :=
  match c.op.getLsbD 1, c.op.getLsbD 0 with
  | false, false => .init (portValue c.lenIn) (portValue c.lenOut)
  | false, true => .step
  | true, false => .run
  | true, true => .rem

/-- The operation code of a command (R61). -/
def Instr.opCode : Instr → BitVec 2
  | .init _ _ => 0b00#2
  | .step => 0b01#2
  | .run => 0b10#2
  | .rem => 0b11#2

/-- The encoder: what a host puts on the ports for a command. Where a command ignores an operand port the encoder puts 0 there
(any bits select the same command, R62). -/
def encode (i : Instr) : CmdPort :=
  match i with
  | .init a b => ⟨i.opCode, BitVec.ofNat _ a, BitVec.ofNat _ b⟩
  | .step => ⟨i.opCode, 0#_, 0#_⟩
  | .run => ⟨i.opCode, 0#_, 0#_⟩
  | .rem => ⟨i.opCode, 0#_, 0#_⟩

/-- The ports for a word numbered as spec/opcode_table.json numbers it: a row has the two bits of `cmd_op`, bits 1 and 0; the
operand ports are ports of their own to which the table gives no bits, and they stand at zero. DESIGN CHOICE
(notes/assumptions/13.md), safe: the spec defines no packed command word. -/
def tablePort (w : Nat) : CmdPort := ⟨BitVec.ofNat 2 w, 0#_, 0#_⟩

/-- The command the decoder reads from an opcode-table word (the decoder never refuses, R64). -/
def decodeTableWord (_nbits w : Nat) : Option Instr := some (decode (tablePort w))

end Sys2Proof
end

