-- ==== Sys2Proof/Machine/State.lean ====
section
/-! DEFINITION. The state of the machine as plain data: the four registers (R20), the three spaces (R26, R27, R28), the response on
the `rsp_*` ports (R63), what the host does next (R152), and the model's own counter of draws (R161). -/

namespace Sys2Proof.Machine

/-- A byte space (`IN` or `OUT`, R46): (offset, byte) pairs, offsets strictly rising, no byte equal to what an unlisted offset
reads as (`Memory.wf`). -/
abbrev Memory := List Host.Cell

/-- The response record (R63), computed from the state after the command. -/
structure Response where
  /-- `rsp_yielded` (R25). -/
  yielded : Bool
  /-- `rsp_exh` (R24). -/
  exh : Bool
  /-- `rsp_in_off`. -/
  inOff : Nat
  /-- `rsp_in_rem`. -/
  inRem : Nat
  /-- `rsp_out_off`. -/
  outOff : Nat
  /-- `rsp_out_rem`. -/
  outRem : Nat
  deriving DecidableEq, Repr

/-- What the host drives at one rising edge of `clk` (R60, R65). -/
structure Pins where
  /-- `rst` (R160). -/
  rst : Bool
  /-- `cmd_valid` (R65). -/
  valid : Bool
  /-- `cmd_op`, `cmd_len_in`, `cmd_len_out`. -/
  cmd : CmdPort
  deriving DecidableEq, Repr

/-- One thing the host does (R152). DESIGN CHOICE (notes/assumptions/2.md), safe: the spec lists the host's interactions; keeping
those still to come as a list of the state is the model's way to make the step a function. -/
inductive HostMove where
  /-- An edge of `clk` at which `cmd_ready` is 1, and the edges, oldest first, that pass while the command accepted at it is in
  progress (`cmd_ready` is 0): a command presented at one of those has no effect (R65); `rst = 1` at one aborts the command (R161).
  That the ports may hold any commands at those edges, changing ones too, is DESIGN CHOICE (U14, notes/assumptions/22.md). -/
  | edge (p : Pins) (busy : List Pins)
  /-- Configure: drive `alpha_tbl` (R66, R152). -/
  | driveAlpha (tbl : AlphaTbl)
  /-- Prepare: place bytes in `IN` from an offset up (R152, R162 step 3). -/
  | writeIn (off : Nat) (bytes : List Byte)
  /-- Prepare, or tail: place bytes in `OUT` from an offset up (R132, R152). -/
  | writeOut (off : Nat) (bytes : List Byte)
  deriving DecidableEq, Repr

/-- The machine's state. -/
structure State where
  /-- `LEN_IN` (R20, R21). -/
  lenIn : Nat
  /-- `LEN_OUT` (R20, R21). -/
  lenOut : Nat
  /-- `IOFF`, the input cursor (R20, R22). -/
  ioff : Nat
  /-- `OOFF`, the output cursor (R20, R22). -/
  ooff : Nat
  /-- `IN` (R26). -/
  inMem : Memory
  /-- `OUT` (R27). -/
  outMem : Memory
  /-- `alpha_tbl`, the alphabet table `ALPHA` (R28, R66). -/
  alphaTbl : AlphaTbl
  /-- The response delivered by the last step; `none` is `rsp_valid = 0` (R63, R65). -/
  rsp : Option Response
  /-- What the host does next, oldest first (R48 item 4, R152; the model's own list). -/
  script : List HostMove
  /-- How many draws of R161 have been made (the model's own counter, notes/assumptions/9.md). -/
  draws : Nat
  deriving DecidableEq, Repr

/-- The faults: none. "The set of exceptions is empty" (R140). -/
inductive Fault where
  deriving DecidableEq, Repr

/-- Why a step has no meaning. -/
inductive Refusal where
  /-- Raised by `exec` for a command without a meaning: by no arm now. Safe: the machine stops. -/
  | notModelled (mnemonic : String)
  /-- Raised by the host's move `driveAlpha` when it changes `alpha_tbl` while a call is open (R47 b, R166, U5: `refuse`). Safe: the
  machine stops where the host breaks its duty. -/
  | hostChangedAlpha
  /-- Raised by the host's move `writeIn` while a call is open (R47 a, R166, U5: `refuse`). Safe, as above. -/
  | hostWroteIn
  /-- Raised by the host's move `writeOut` while a call is open (R47 c, R166, U5: `refuse`). Safe, as above. -/
  | hostWroteOut
  deriving DecidableEq, Repr

/-- The machine right after reset: an iterator over two empty buffers, nothing pending (R32, R160). `IN`, `OUT` and `ALPHA` are
unspecified after power-up (R32, U11): DESIGN CHOICE (notes/assumptions/3.md, 4.md), unsafe: nothing listed, and a table of zeros. -/
def State.reset : State where
  lenIn := 0
  lenOut := 0
  ioff := 0
  ooff := 0
  inMem := []
  outMem := []
  alphaTbl := 0#512
  rsp := none
  script := []
  draws := 0

end Sys2Proof.Machine
end

