-- ==== Sys2Proof/Machine/Ops.lean ====
section
/-! DEFINITION. The shared operations over the byte spaces and the registers: MemRead and MemWrite (R10), the reset of the
registers (R160), the reset that aborts a command (R161), and the tick without a command. There is no operation that takes an
exception and none that returns from one: the set of exceptions is empty (R140) and there is no trap mechanism (R146). -/

namespace Sys2Proof.Machine

/-- One byte of a space. -/
def Memory.read : Memory → Nat → Byte
  | [], _ => Config.unlistedByte
  | (a, b) :: m, x => if a = x then b else Memory.read m x

/-- Drop every entry for an offset. -/
def Memory.erase (m : Memory) (x : Nat) : Memory := m.filter (fun c => c.1 ≠ x)

/-- Put an entry at its place in the order of offsets, over an entry for the same offset. -/
def Memory.insert : Memory → Nat → Byte → Memory
  | [], x, v => [(x, v)]
  | (a, b) :: m, x, v =>
    if x < a then (x, v) :: (a, b) :: m
    else if x = a then (x, v) :: m
    else (a, b) :: Memory.insert m x v

/-- Write one byte; writing what an unlisted offset reads as removes the entry. -/
def Memory.write (m : Memory) (x : Nat) (v : Byte) : Memory :=
  if v = Config.unlistedByte then m.erase x else m.insert x v

/-- `MemRead(addr, n)` (R10): the bytes at `addr .. addr+n-1`, the lowest offset first. -/
def Memory.readBytes (m : Memory) : Nat → Nat → List Byte
  | _, 0 => []
  | a, n + 1 => m.read a :: m.readBytes (a + 1) n

/-- `MemWrite(addr, n, v)` (R10): the list's bytes at `addr` up, element 0 at the lowest offset, no other byte changed. -/
def Memory.writeBytes (m : Memory) (a : Nat) : List Byte → Memory
  | [] => m
  | b :: bs => (m.write a b).writeBytes (a + 1) bs

/-- The canonical form: offsets strictly rising, no byte equal to what an unlisted offset reads as. -/
def Memory.wf : Memory → Bool
  | [] => true
  | (a, b) :: m => decide (b ≠ Config.unlistedByte) && m.all (fun c => decide (a < c.1)) && Memory.wf m

/-- Reset of the engine (R160, R32): the four registers to 0, no response pending, `IN`, `OUT` and `ALPHA` as they are. -/
def resetRegs (s : State) : State :=
  { s with lenIn := 0, lenOut := 0, ioff := 0, ooff := 0, rsp := none }

/-- An edge at which no command is accepted: the registers are held (R151) and no response is on the ports (R65). -/
def idle (s : State) : State := { s with rsp := none }

/-- `OUT` after a reset that aborts a command (R161): `before` and `after` are the space before the command and as the command
would have left it; each of the `n` offsets from `a` up holds one or the other byte, as draw number `k` says. -/
def drawBytes (k : Nat) (before after : Memory) : Nat → Nat → Memory
  | _, 0 => before
  | a, n + 1 =>
    let rest := drawBytes k before after (a + 1) n
    if Config.abortedByteWritten k a then rest.write a (after.read a) else rest

/-- Reset while a command is in progress (R161): `s` is the state before the command, `t` the one it would have led to. The output
windows it was going to write are the offsets from `OOFF` before to `OOFF` after it: `OUT[OOFF .. OOFF+31]` for a STEP that
yields, `OUT[32*n0 .. 32*N-1]` for a RUN, none for INIT, REM or a STEP that does not yield. -/
def abortCommand (s t : State) : State :=
  { resetRegs s with
    outMem := drawBytes s.draws s.outMem t.outMem s.ooff (t.ooff - s.ooff)
    draws := s.draws + 1 }

end Sys2Proof.Machine
end

