-- ==== Sys2Proof/Machine/Flags.lean ====
section
/-! DEFINITION. Every flag the spec gives: `EXH` (R24), its complement `AVAIL` (R81), `yielded` in the response record (R25, R63), and
whether an encode call is open (R47). None is stored but in the response. -/

namespace Sys2Proof.Machine

/-- `EXH`, the exhausted flag (R24). The subtractions are on naturals; in every state the engine can reach neither goes below
zero (R86). In other states they give 0. DESIGN CHOICE (notes/assumptions/12.md), unsafe only for states no run reaches. -/
def exh (s : State) : Bool :=
  decide (s.lenIn - s.ioff < Config.ICS) || decide (s.lenOut - s.ooff < Config.OCS)

/-- `AVAIL`: a next window pair exists (R81). -/
def avail (s : State) : Bool :=
  decide (s.lenIn - s.ioff ≥ Config.ICS) && decide (s.lenOut - s.ooff ≥ Config.OCS)

/-- The response record of a command, from the state after it (R63). -/
def responseOf (yielded : Bool) (s : State) : Response where
  yielded := yielded
  exh := exh s
  inOff := s.ioff
  inRem := s.lenIn - s.ioff
  outOff := s.ooff
  outRem := s.lenOut - s.ooff

/-- `respond(...)` (R10, R63): the response is delivered when the command's effect is complete. -/
def respond (yielded : Bool) (s : State) : State := { s with rsp := some (responseOf yielded s) }

/-- An encode call is open (R47): from an INIT to the first of a response with `exh = 1`, the next INIT, a reset. Every command's
response carries `EXH` of the state it leaves, and reset leaves `EXH = 1`, so between commands a call is open exactly when
`EXH = 0`. DEDUCED (notes/assumptions/8.md), safe. -/
def callOpen (s : State) : Bool := !exh s

end Sys2Proof.Machine
end

