-- ==== Sys2Proof/Machine/Operands.lean ====
section
/-! DEFINITION. What a block step works on: the window pair (R83), the words of a window (R68, R69, R100) and their byte order
(R41, R101). The operand forms of a command are the two length ports, read by `portValue` in Decode.lean (R62). -/

namespace Sys2Proof.Machine

/-- WINDOW, input side (R83): the bytes `IN[IOFF .. IOFF+25]`. -/
def inputWindow (s : State) : List Byte := s.inMem.readBytes s.ioff Config.ICS

/-- Byte `k` of a window (a window always has its fixed length, R83, so `k` is in it wherever the kernel looks). -/
def winByte (win : List Byte) (k : Nat) : Byte := win.getD k 0

/-- BE64 (R101): the first byte, at the lowest offset, is the most significant. -/
def be64 (b0 b1 b2 b3 b4 b5 b6 b7 : Byte) : Word := b0 ++ b1 ++ b2 ++ b3 ++ b4 ++ b5 ++ b6 ++ b7

/-- LOADW (R100): word `i` is made of the 8 window bytes from `6*i` up. -/
def loadw (win : List Byte) (i : Nat) : Word :=
  let b := fun k => winByte win (Config.SUBIN * i + k)
  be64 (b 0) (b 1) (b 2) (b 3) (b 4) (b 5) (b 6) (b 7)

end Sys2Proof.Machine
end

