-- ==== Sys2Proof/Machine/Alphabet.lean ====
section
/-! DEFINITION. The alphabet mapper MAP (R105), the layout of the port `alpha_tbl` (R66), and the standard alphabet, which is one
possible configuration and not built into the hardware (R106). -/

namespace Sys2Proof.Machine

/-- `MAP(v) = ALPHA[v]` (R105): the bits `[8v+7 : 8v]` of `alpha_tbl` (R66). Total; any 64 bytes are accepted. -/
def mapByte (tbl : AlphaTbl) (v : Group) : Byte := tbl.extractLsb' (8 * v.toNat) 8

/-- The port's contents for a list of entries, entry 0 the least significant byte (R66). -/
def alphaOfBytes : List Byte → AlphaTbl
  | [] => 0#512
  | b :: bs => (alphaOfBytes bs <<< 8) ||| b.setWidth 512

/-- The byte of entry `v` of the standard alphabet (R106): `A`-`Z`, `a`-`z`, `0`-`9`, `+`, `/`. PRESUMED (notes/assumptions/17.md),
safe: the character codes are the spec's G1, general knowledge, and no rule of the hardware depends on them. -/
def alphaStdByte (v : Nat) : Byte :=
  if v < 26 then BitVec.ofNat 8 (0x41 + v)
  else if v < 52 then BitVec.ofNat 8 (0x61 + (v - 26))
  else if v < 62 then BitVec.ofNat 8 (0x30 + (v - 52))
  else if v = 62 then 0x2B#8
  else 0x2F#8

/-- `ALPHA_STD` on the port (R106). -/
def alphaStd : AlphaTbl := alphaOfBytes ((List.range Config.NALPHA).map alphaStdByte)

end Sys2Proof.Machine
end

