-- ==== Sys2Proof/Machine/Kernel.lean ====
section
/-! DEFINITION. The block kernel: the bit extractor EXTR (R102), the 6-bit value (R104), ENCBLK (R107), the block write (R108), and
one block with the cursor advance (R84). -/

namespace Sys2Proof.Machine

/-- The shift of group `j`: `64 - (j + 1) * 6` (R102). -/
def extrShift (j : Nat) : Nat := Config.WBITS - (j + 1) * Config.GBITS

/-- The low six bits of a byte (R104). -/
def u6 (b : Byte) : Group := (b &&& 0x3F#8).setWidth 6

/-- EXTR (R102): group `j` of a word, `v = (W >> shift) & 0x3F`. -/
def extr (w : Word) (j : Nat) : Group := ((w >>> extrShift j) &&& 0x3F#64).setWidth 6

/-- ENCBLK (R107): the 32 output bytes of a block; `out[8*i + j] = MAP(EXTR(LOADW(win, i), j))`. -/
def encblk (tbl : AlphaTbl) (win : List Byte) : List Byte :=
  (List.range Config.NSUB).flatMap fun i =>
    (List.range Config.NGRP).map fun j => mapByte tbl (extr (loadw win i) j)

/-- The block write (R108): the 32 bytes go to the output window `OUT[OOFF .. OOFF+31]`, in one write (R50). -/
def blockWrite (s : State) : State :=
  { s with outMem := s.outMem.writeBytes s.ooff (encblk s.alphaTbl (inputWindow s)) }

/-- ADVANCE (R84): both cursors move together. -/
def advance (s : State) : State :=
  { s with ioff := s.ioff + Config.IST, ooff := s.ooff + Config.OST }

/-- One block: the block write, then the advance (R120, R123). -/
def blockStep (s : State) : State := advance (blockWrite s)

end Sys2Proof.Machine
end

