-- ==== Sys2Proof/Machine/Encoder.lean ====
section
/-! DEFINITION. The meanings of STEP (R120) and RUN (R123). -/

namespace Sys2Proof.Machine

/-- STEP (R120): encode the next block if there is one. -/
def execStep (s : State) : Host.Outcome State Fault Refusal :=
  if avail s then .next (respond true (blockStep s)) else .next (respond false s)

/-- The loop of RUN (R123), `while AVAIL: one block`, with a bound on its turns. -/
def runLoop : Nat → State → State
  | 0, s => s
  | n + 1, s => if avail s then runLoop n (blockStep s) else s

/-- RUN (R123): every remaining full block, then the response. Each turn raises `IOFF` by 24 and needs `IOFF + 26 <= LEN_IN` (R125),
so `LEN_IN - IOFF` bounds the turns and the loop stops only by exhaustion. -/
def execRun (s : State) : Host.Outcome State Fault Refusal :=
  .next (respond false (runLoop (s.lenIn - s.ioff) s))

end Sys2Proof.Machine
end

