-- ==== Sys2Proof/Machine/Iterator.lean ====
section
/-! DEFINITION. The meanings of INIT (R80) and REM (R88). -/

namespace Sys2Proof.Machine

/-- INIT `len_in`, `len_out` (R80): construct the iterator; accepted in any state. -/
def execInit (a b : Nat) (s : State) : Host.Outcome State Fault Refusal :=
  .next (respond false { s with lenIn := a, lenOut := b, ioff := 0, ooff := 0 })

/-- REM (R88): report the remainders; nothing else changes. -/
def execRem (s : State) : Host.Outcome State Fault Refusal := .next (respond false s)

end Sys2Proof.Machine
end

