-- ==== Sys2Proof/Machine/HostMoves.lean ====
section
/-! DEFINITION. What each move of the host does (R65, R145, R152, R160, R161), and how an opcode-table word is presented to the engine. -/

namespace Sys2Proof.Machine

/-- Edges that pass with no command in progress are edges of their own: back to the head of the list, each with no edge inside its
command. So a command accepted at the first has completed when the second is taken, although R65 has `cmd_ready = 0` right after
an acceptance: how many edges a command lasts is open (R7). DESIGN CHOICE (notes/assumptions/23.md), unsafe for a reader who takes
them for consecutive cycles; a run with the second edge inside the command is a move of its own. -/
def requeue (later : List Pins) (s : State) : State :=
  { s with script := later.map (fun p => .edge p []) ++ s.script }

/-- A command accepted while the edges `busy` pass (R65, R161): without `rst` among them it completes and commands presented
meanwhile have no effect; the first `rst` aborts it, and the edges after that one find no command in progress
(notes/assumptions/18.md, 23.md). Of `busy` only the `rst` are read: a host that changes `cmd_op` or the operands while `cmd_valid = 1`
and `cmd_ready = 0`, which U14 leaves open and would refuse, changes nothing here either. DESIGN CHOICE
(notes/assumptions/22.md), unsafe for such a host only. -/
def acceptCommand (c : CmdPort) (busy : List Pins) (s : State) : Host.Outcome State Fault Refusal :=
  match busy.dropWhile (fun p => !p.rst) with
  | [] => exec (decode c) s
  | _ :: later =>
    match exec (decode c) s with
    | .next t => .next (requeue later (abortCommand s t))
    | .fault f => .fault f
    | .refused r => .refused r

/-- An edge with `cmd_ready = 1`: reset wins (R145); else a presented command is accepted (R65); else nothing happens (R151). -/
def clockEdge (p : Pins) (busy : List Pins) (s : State) : Host.Outcome State Fault Refusal :=
  if p.rst then .next (requeue busy (resetRegs s))
  else if p.valid then acceptCommand p.cmd busy s
  else .next (requeue busy (idle s))

/-- Configure (R152): the host drives `alpha_tbl`. While a call is open the port holds the same value (R66); a change then has
no meaning (R166) and is refused (U5). -/
def hostDriveAlpha (tbl : AlphaTbl) (s : State) : Host.Outcome State Fault Refusal :=
  if callOpen s && decide (tbl ≠ s.alphaTbl) then .refused .hostChangedAlpha
  else .next { idle s with alphaTbl := tbl }

/-- Prepare (R152): the host writes `IN`; while a call is open that has no meaning (R47 a, R166) and is refused (U5). -/
def hostWriteIn (off : Nat) (bytes : List Byte) (s : State) : Host.Outcome State Fault Refusal :=
  if callOpen s then .refused .hostWroteIn
  else .next { idle s with inMem := s.inMem.writeBytes off bytes }

/-- Prepare or tail (R132, R152): the host writes `OUT`; while a call is open that has no meaning (R47 c, R166) and is refused (U5). -/
def hostWriteOut (off : Nat) (bytes : List Byte) (s : State) : Host.Outcome State Fault Refusal :=
  if callOpen s then .refused .hostWroteOut
  else .next { idle s with outMem := s.outMem.writeBytes off bytes }

/-- One move of the host. -/
def hostMove (m : HostMove) (s : State) : Host.Outcome State Fault Refusal :=
  match m with
  | .edge p busy => clockEdge p busy s
  | .driveAlpha tbl => hostDriveAlpha tbl s
  | .writeIn off bytes => hostWriteIn off bytes s
  | .writeOut off bytes => hostWriteOut off bytes s

/-- The machine's next event: the host's next move, or an edge with nothing presented where the host does nothing (R151). -/
def nextEvent (s : State) : Host.Outcome State Fault Refusal :=
  match s.script with
  | [] => .next (idle s)
  | m :: rest => hostMove m { s with script := rest }

/-- The edge at which a command is presented, with no reset and nothing else presented while it is in progress. -/
def presentEdge (c : CmdPort) : HostMove := .edge ⟨false, true, c⟩ []

/-- An opcode-table word presented as the next command (notes/assumptions/13.md). -/
def presentWord (s : State) (w : Nat) : State := { s with script := presentEdge (tablePort w) :: s.script }

end Sys2Proof.Machine
end

