-- ==== Sys2Proof/Machine/Step.lean ====
section
/-! DEFINITION. The step: the engine fetches nothing (R23, R53); it takes the host's next move, and a command that is accepted is run whole (R49). -/

namespace Sys2Proof.Machine

/-- One step of the machine. -/
def step (s : State) : Host.Outcome State Fault Refusal := nextEvent s

/-- `s` with the command of an opcode-table word as the next one the host presents. -/
def State.withFetchWord (s : State) (_nbits w : Nat) : State := presentWord s w

end Sys2Proof.Machine
end

