-- ==== Sys2Proof/Machine/Listing.lean ====
section
/-! DEFINITION. Sequences of commands, the pseudo-command ENCODE and the listing directives (R67, R126), as the host moves they stand for. -/

namespace Sys2Proof.Machine

/-- Commands one at a time in the order the host issues them (R48 item 4). -/
def execAll : List Instr → State → Host.Outcome State Fault Refusal
  | [], s => .next s
  | i :: is, s =>
    match exec i s with
    | .next t => execAll is t
    | .fault f => .fault f
    | .refused r => .refused r

/-- A line of a listing (R67). -/
inductive ListingLine where
  /-- One command. -/
  | command (i : Instr)
  /-- `ENCODE a, b` (R67, R126). -/
  | encode (a b : Nat)
  /-- `.in <bytes>`. -/
  | dirIn (bytes : List Byte)
  /-- `.out <length> [fill <byte>]`. -/
  | dirOut (length : Nat) (fill : Option Byte)
  /-- `.alpha <name or 64 bytes>`. -/
  | dirAlpha (tbl : AlphaTbl)
  deriving DecidableEq, Repr

/-- `ENCODE a, b` expands to `INIT a, b` then `RUN` (R67). -/
def encodeCall (a b : Nat) : List Instr := [.init a b, .run]

/-- The commands of a line; a directive is no command (R67). -/
def ListingLine.commands : ListingLine → List Instr
  | .command i => [i]
  | .encode a b => encodeCall a b
  | .dirIn _ => []
  | .dirOut _ _ => []
  | .dirAlpha _ => []

/-- The host moves of a line: a command is presented at an edge; a directive is the host's preparation of `IN`, `OUT`, `ALPHA` (R67). -/
def ListingLine.moves : ListingLine → List HostMove
  | .command i => [presentEdge (Sys2Proof.encode i)]
  | .encode a b => (encodeCall a b).map (fun i => presentEdge (Sys2Proof.encode i))
  | .dirIn bytes => [.writeIn 0 bytes]
  | .dirOut n (some v) => [.writeOut 0 (List.replicate n v)]
  | .dirOut _ none => []
  | .dirAlpha tbl => [.driveAlpha tbl]

end Sys2Proof.Machine
end

