-- ==== Sys2Proof/Machine/Accesses.lean ====
section
/-! DEFINITION. Which accesses a command makes, as the reference kernel makes them (R40, R44): a list beside the meaning, for
statements about bounds (R87) and about their independence of the data (R128). -/

namespace Sys2Proof.Machine

/-- The three kinds of access, and no other (R40). -/
inductive Access where
  /-- A read of consecutive bytes of `IN` by LOADW (R40 a). -/
  | readIn (off n : Nat)
  /-- A read of one entry of `ALPHA` by MAP (R40 b). -/
  | readAlpha (v : Group)
  /-- A write of one byte of `OUT` (R40 c). -/
  | writeOut (off : Nat)
  deriving DecidableEq, Repr

/-- An access with its address and width but without what depends on the data: which entry of the table is read (R128). -/
def Access.shape : Access → Access
  | .readIn off n => .readIn off n
  | .readAlpha _ => .readAlpha 0
  | .writeOut off => .writeOut off

/-- The accesses of one block, in the reference order: word by word, group by group (R50). -/
def blockAccesses (s : State) : List Access :=
  (List.range Config.NSUB).flatMap fun i =>
    Access.readIn (s.ioff + Config.SUBIN * i) Config.WBYTES ::
      (List.range Config.NGRP).flatMap fun j =>
        [ Access.readAlpha (extr (loadw (inputWindow s) i) j),
          Access.writeOut (s.ooff + Config.NGRP * i + j) ]

/-- The accesses of the turns of RUN's loop. -/
def runAccesses : Nat → State → List Access
  | 0, _ => []
  | n + 1, s => if avail s then blockAccesses s ++ runAccesses n (blockStep s) else []

/-- The accesses of a command: INIT and REM make none (R80, R88). -/
def accesses (i : Instr) (s : State) : List Access :=
  match i with
  | .init _ _ => []
  | .step => if avail s then blockAccesses s else []
  | .run => runAccesses (s.lenIn - s.ioff) s
  | .rem => []

end Sys2Proof.Machine
end

