-- ==== Sys2Proof/Machine/ClosedForms.lean ====
section
/-! DEFINITION. The spec's other views of the same work, for statements about it: how many blocks (R90), the flat view of a block (R72),
the three-byte law (R107 c), and the continuous view of a whole call (R124). The machine does not use them. -/

namespace Sys2Proof.Machine

/-- `N_in`: windows an input of this length allows (R90). -/
def blocksIn (lenIn : Nat) : Nat := (lenIn - 2) / 24

/-- `N_out`: windows an output of this length allows (R90). -/
def blocksOut (lenOut : Nat) : Nat := lenOut / 32

/-- `N`: the window pairs the iterator yields before exhaustion (R90). -/
def blockCount (lenIn lenOut : Nat) : Nat := min (blocksIn lenIn) (blocksOut lenOut)

/-- The blocks still to come from a state: `N` of what remains. -/
def blocksLeft (s : State) : Nat := blockCount (s.lenIn - s.ioff) (s.lenOut - s.ooff)

/-- `k` blocks in a row. -/
def blockSteps : Nat → State → State
  | 0, s => s
  | n + 1, s => blockSteps n (blockStep s)

/-- `S = win[0] ++ win[1] ++ ... ++ win[23]`, bit 191 the most significant bit of `win[0]` (R72). -/
def flatString (win : List Byte) : BitVec 192 :=
  (List.range 24).foldl (fun acc k => (acc <<< 8) ||| (winByte win k).setWidth 192) 0#192

/-- The block as a regrouping of `S`: byte `m` is `ALPHA[S[191-6m : 186-6m]]` (R72, R107). -/
def encblkFlat (tbl : AlphaTbl) (win : List Byte) : List Byte :=
  (List.range 32).map fun m => mapByte tbl ((flatString win).extractLsb' (186 - 6 * m) 6)

/-- The four output bytes of three consumed bytes (R107 c). -/
def encodeTriple (tbl : AlphaTbl) (a b c : Byte) : List Byte :=
  [ mapByte tbl (a.extractLsb' 2 6),
    mapByte tbl (a.extractLsb' 0 2 ++ b.extractLsb' 4 4),
    mapByte tbl (b.extractLsb' 0 4 ++ c.extractLsb' 6 2),
    mapByte tbl (c.extractLsb' 0 6) ]

/-- The block as eight times the three-byte law (R107 c): another strategy for the same block (R129). -/
def encblkTriples (tbl : AlphaTbl) (win : List Byte) : List Byte :=
  (List.range 8).flatMap fun t =>
    encodeTriple tbl (winByte win (3 * t)) (winByte win (3 * t + 1)) (winByte win (3 * t + 2))

/-- Bit `t` of `T`, the bit string of the input from offset 0, bit 0 the most significant bit of `IN[0]` (R124). -/
def streamBit (m : Memory) (t : Nat) : Bool := (m.read (t / 8)).getLsbD (7 - t % 8)

/-- `T[6k .. 6k+5]` read as an unsigned number, first bit most significant (R124). -/
def streamGroup (m : Memory) (k : Nat) : Group :=
  (List.range 6).foldl (fun v i => (v <<< 1) ||| (BitVec.ofBool (streamBit m (6 * k + i))).setWidth 6) 0#6

end Sys2Proof.Machine
end

