-- ==== Sys2Proof/Safety.lean ====
section
/-! DEFINITION. What counts as a safe state and a safe run, in the terms the statements use: the invariants (R86), the bounds of
accesses (R87), and the named premises of R163. -/

namespace Sys2Proof.Machine

/-- The invariant of R86: the cursors have moved the same number of blocks and stay inside the buffers. -/
def CursorInv (s : State) : Prop :=
  ∃ n : Nat, s.ioff = 24 * n ∧ s.ooff = 32 * n ∧ s.ioff ≤ s.lenIn ∧ s.ooff ≤ s.lenOut ∧ (1 ≤ n → s.ioff + 2 ≤ s.lenIn)

/-- Each of the four registers is an `AW`-bit number (R20, R86). -/
def RegsFit (s : State) : Prop :=
  FitsPort s.lenIn ∧ FitsPort s.lenOut ∧ FitsPort s.ioff ∧ FitsPort s.ooff

/-- Each field of a response is an `AW`-bit number (R63). -/
def ResponseFits (r : Response) : Prop :=
  FitsPort r.inOff ∧ FitsPort r.inRem ∧ FitsPort r.outOff ∧ FitsPort r.outRem

/-- Both byte spaces are in canonical form. -/
def MemoriesCanonical (s : State) : Prop := s.inMem.wf = true ∧ s.outMem.wf = true

/-- The whole invariant: cursors, widths, memories. -/
def StateInv (s : State) : Prop := CursorInv s ∧ RegsFit s ∧ MemoriesCanonical s

/-- An access that stays inside buffers of these lengths (R87). -/
def Access.InBounds (lenIn lenOut : Nat) : Access → Prop
  | .readIn off n => off + n ≤ lenIn
  | .readAlpha v => v.toNat < Config.NALPHA
  | .writeOut off => off < lenOut

/-- `AlphaStable` (R163) from one state to a later one. -/
def AlphaStable (s t : State) : Prop := t.alphaTbl = s.alphaTbl

/-- `InStable` (R163): the input bytes of the call are the same in both states. -/
def InStable (s t : State) : Prop := ∀ a, a < s.lenIn → t.inMem.read a = s.inMem.read a

/-- `LengthsTrue` (R163): the memory behind the ports has at least the bytes the host named. -/
def LengthsTrue (sizeIn sizeOut : Nat) (s : State) : Prop := s.lenIn ≤ sizeIn ∧ s.lenOut ≤ sizeOut

/-- `OutExclusive` (R163) at one step: no agent but the engine writes `OUT[0 .. LEN_OUT)`. The host is the only other agent of the
model (notes/assumptions/14.md), and no move of it reads while a command is in progress (notes/assumptions/20.md). -/
def OutExclusive (s : State) : Prop :=
  ∀ off bytes, s.script.head? = some (.writeOut off bytes) → bytes = [] ∨ s.lenOut ≤ off

/-- A run of consecutive bytes of one physical memory. -/
structure Region where
  /-- The lowest address. -/
  base : Nat
  /-- How many bytes; 0 is the empty region. -/
  size : Nat
  deriving DecidableEq, Repr

/-- The addresses of a region. -/
def Region.Holds (r : Region) (x : Nat) : Prop := r.base ≤ x ∧ x < r.base + r.size

/-- Two regions overlap in no address; an empty region overlaps nothing. -/
def Region.Apart (r r' : Region) : Prop := ∀ x, r.Holds x → ¬ r'.Holds x

/-- Where a platform places buffers in one physical memory (R33, R46): the bases of this call's two, and the `OUT` regions of the
other open calls (R150, R167). -/
structure Placement where
  /-- Physical address of `IN[0]`. -/
  inBase : Nat
  /-- Physical address of `OUT[0]`. -/
  outBase : Nat
  /-- The `OUT` regions of the other calls that are open. -/
  otherOuts : List Region
  deriving DecidableEq, Repr

/-- The `IN` region of the call (R46). -/
def Placement.inRegion (p : Placement) (s : State) : Region := ⟨p.inBase, s.lenIn⟩

/-- The `OUT` region of the call (R46). -/
def Placement.outRegion (p : Placement) (s : State) : Region := ⟨p.outBase, s.lenOut⟩

/-- `Disjoint` (R163, R167, R168): the `OUT` region of the call overlaps neither its `IN` region nor the `OUT` region of any other
open call. -/
def BuffersDisjoint (p : Placement) (s : State) : Prop :=
  (p.outRegion s).Apart (p.inRegion s) ∧ ∀ r ∈ p.otherOuts, (p.outRegion s).Apart r

/-- `CapacityOk` (R163): room for every full block of the input. -/
def CapacityOk (lenIn lenOut : Nat) : Prop := lenOut ≥ 32 * ((lenIn - 2) / 24)

/-- The next step accepts this command: an edge with it presented and valid, no reset then, none before it completes (R65). -/
def Accepts (s : State) (c : CmdPort) (rest : List HostMove) : Prop :=
  ∃ busy : List Pins, s.script = .edge ⟨false, true, c⟩ busy :: rest ∧ ∀ p ∈ busy, p.rst = false

/-- The next step accepts an INIT. -/
def AcceptsInit (s : State) : Prop :=
  ∃ c rest a b, Accepts s c rest ∧ decode c = .init a b

/-- The next step resets the engine, alone (R160) or inside a command (R161). -/
def Resets (s : State) : Prop :=
  ∃ p busy rest, s.script = .edge p busy :: rest ∧ (p.rst = true ∨ p.valid = true ∧ ∃ q ∈ busy, q.rst = true)

end Sys2Proof.Machine
end

