-- ==== Sys2Proof/Certificates/Slice0/Obligations.lean ====
section
/-! DEFINITION. The statements for the provers. Each docstring names the rule of the spec it formalises. -/

open Sys2Proof Sys2Proof.Machine

/-! ### The four commands -/

/-- R80. INIT sets the four registers and answers, in any state, for any operands; it touches nothing else; `cmd_op = 00` is INIT with the
two operand ports as unsigned numbers. -/
def Obligations.InitConstructsIterator : Prop :=
  (∀ (a b : Nat) (s : State),
    exec (.init a b) s = .next { s with
      lenIn := a, lenOut := b, ioff := 0, ooff := 0,
      rsp := some { yielded := false, exh := decide (a < 26 ∨ b < 32), inOff := 0, inRem := a, outOff := 0, outRem := b } }) ∧
  (∀ p q : BitVec Config.AW, decode ⟨0b00#2, p, q⟩ = .init p.toNat q.toNat)

/-- R120. STEP encodes one block if 26 input bytes and 32 output bytes remain, and nothing otherwise; `cmd_op = 01` is STEP whatever
stands on the operand ports. -/
def Obligations.StepEncodesNextBlock : Prop :=
  (∀ s : State, s.lenIn - s.ioff ≥ 26 ∧ s.lenOut - s.ooff ≥ 32 →
    exec .step s = .next { s with
      outMem := s.outMem.writeBytes s.ooff (encblk s.alphaTbl (s.inMem.readBytes s.ioff 26))
      ioff := s.ioff + 24
      ooff := s.ooff + 32
      rsp := some
        { yielded := true
          exh := decide (s.lenIn - (s.ioff + 24) < 26 ∨ s.lenOut - (s.ooff + 32) < 32)
          inOff := s.ioff + 24, inRem := s.lenIn - (s.ioff + 24)
          outOff := s.ooff + 32, outRem := s.lenOut - (s.ooff + 32) } }) ∧
  (∀ s : State, ¬ (s.lenIn - s.ioff ≥ 26 ∧ s.lenOut - s.ooff ≥ 32) →
    exec .step s = .next { s with
      rsp := some { yielded := false, exh := true, inOff := s.ioff, inRem := s.lenIn - s.ioff,
                    outOff := s.ooff, outRem := s.lenOut - s.ooff } }) ∧
  (∀ p q : BitVec Config.AW, decode ⟨0b01#2, p, q⟩ = .step)

/-- R123. RUN is the while loop of the rule: it completes in every state, exhausted, with `exh = 1` in its response; exhausted already, it
changes only the response; with a block to do, it is that block followed by RUN. `cmd_op = 10` is RUN. -/
def Obligations.RunIsTheWhileLoop : Prop :=
  (∀ s : State, ∃ t, exec .run s = .next t ∧ (t.lenIn - t.ioff < 26 ∨ t.lenOut - t.ooff < 32) ∧
    t.rsp = some { yielded := false, exh := true, inOff := t.ioff, inRem := t.lenIn - t.ioff,
                   outOff := t.ooff, outRem := t.lenOut - t.ooff }) ∧
  (∀ s : State, ¬ (s.lenIn - s.ioff ≥ 26 ∧ s.lenOut - s.ooff ≥ 32) →
    ∃ r, exec .run s = .next { s with rsp := r }) ∧
  (∀ s : State, s.lenIn - s.ioff ≥ 26 ∧ s.lenOut - s.ooff ≥ 32 →
    exec .run s = exec .run { s with
      outMem := s.outMem.writeBytes s.ooff (encblk s.alphaTbl (s.inMem.readBytes s.ioff 26))
      ioff := s.ioff + 24
      ooff := s.ooff + 32 }) ∧
  (∀ p q : BitVec Config.AW, decode ⟨0b10#2, p, q⟩ = .run)

/-- R88. REM answers with the remainders in every state and changes nothing else; `cmd_op = 11` is REM. -/
def Obligations.RemReportsRemainders : Prop :=
  (∀ s : State,
    exec .rem s = .next { s with
      rsp := some { yielded := false, exh := exh s, inOff := s.ioff, inRem := s.lenIn - s.ioff,
                    outOff := s.ooff, outRem := s.lenOut - s.ooff } }) ∧
  (∀ p q : BitVec Config.AW, decode ⟨0b11#2, p, q⟩ = .rem)

/-- R121. The frame of a block step: the 32 bytes of the window, `IOFF` and `OOFF` change as the rule says; every other byte of `OUT`, the
lengths, `IN` and `ALPHA` do not. A STEP that does not yield changes nothing but the response. -/
def Obligations.StepFrame : Prop :=
  ∀ s t : State, exec .step s = .next t →
    (avail s = true →
      (∀ m, m < 32 → t.outMem.read (s.ooff + m) = (encblk s.alphaTbl (s.inMem.readBytes s.ioff 26)).getD m 0) ∧
      (∀ a, a < s.ooff ∨ s.ooff + 32 ≤ a → t.outMem.read a = s.outMem.read a) ∧
      t.ioff = s.ioff + 24 ∧ t.ooff = s.ooff + 32 ∧ t.lenIn = s.lenIn ∧ t.lenOut = s.lenOut ∧
      t.inMem = s.inMem ∧ t.alphaTbl = s.alphaTbl ∧ t.script = s.script ∧ t.draws = s.draws) ∧
    (avail s = false → t = { s with rsp := t.rsp })

/-- The frame of RUN (R123, R124, R48 item 3): the windows it writes are the offsets from `OOFF` up, 32 for each block that is left; every byte
outside them, the lengths, `IN` and `ALPHA` are unchanged, and the cursors move together. -/
def Obligations.RunFrame : Prop :=
  ∀ s t : State, exec .run s = .next t →
    (∀ a, a < s.ooff ∨ s.ooff + 32 * min ((s.lenIn - s.ioff - 2) / 24) ((s.lenOut - s.ooff) / 32) ≤ a →
      t.outMem.read a = s.outMem.read a) ∧
    t.ioff = s.ioff + 24 * min ((s.lenIn - s.ioff - 2) / 24) ((s.lenOut - s.ooff) / 32) ∧
    t.ooff = s.ooff + 32 * min ((s.lenIn - s.ioff - 2) / 24) ((s.lenOut - s.ooff) / 32) ∧
    t.lenIn = s.lenIn ∧ t.lenOut = s.lenOut ∧ t.inMem = s.inMem ∧ t.alphaTbl = s.alphaTbl ∧
    t.script = s.script ∧ t.draws = s.draws

/-- The frame of INIT and REM (R80, R88): every byte of `OUT` and of `IN`, and `ALPHA`, are unchanged by both; REM leaves the four registers too. -/
def Obligations.InitRemFrame : Prop :=
  (∀ (a b : Nat) (s t : State), exec (.init a b) s = .next t →
    (∀ x, t.outMem.read x = s.outMem.read x) ∧ (∀ x, t.inMem.read x = s.inMem.read x) ∧ t.alphaTbl = s.alphaTbl ∧
    t.script = s.script ∧ t.draws = s.draws) ∧
  (∀ s t : State, exec .rem s = .next t →
    (∀ x, t.outMem.read x = s.outMem.read x) ∧ (∀ x, t.inMem.read x = s.inMem.read x) ∧ t.alphaTbl = s.alphaTbl ∧
    t.script = s.script ∧ t.draws = s.draws ∧
    t.lenIn = s.lenIn ∧ t.lenOut = s.lenOut ∧ t.ioff = s.ioff ∧ t.ooff = s.ooff)

/-- R40, R26, R28: no command writes `IN` or `ALPHA` (nor the model's own list of host moves and count of draws). -/
def Obligations.CommandsNeverWriteInputs : Prop :=
  ∀ (i : Instr) (s t : State), exec i s = .next t →
    t.inMem = s.inMem ∧ t.alphaTbl = s.alphaTbl ∧ t.script = s.script ∧ t.draws = s.draws

/-- R63. Every command produces exactly one response, its fields computed from the state after it; `yielded` is 1 only for a STEP that
encoded a block. -/
def Obligations.EveryCommandResponds : Prop :=
  ∀ (i : Instr) (s t : State), exec i s = .next t →
    t.rsp = some
      { yielded := decide (i = .step) && avail s
        exh := decide (t.lenIn - t.ioff < 26 ∨ t.lenOut - t.ooff < 32)
        inOff := t.ioff, inRem := t.lenIn - t.ioff, outOff := t.ooff, outRem := t.lenOut - t.ooff }

/-- R140. No command, in any state, with any operands, raises anything: every command answers a next state, and no step faults. -/
def Obligations.NoCommandRaises : Prop :=
  (∀ (i : Instr) (s : State), ∃ t, exec i s = .next t) ∧ (∀ (s : State) (f : Fault), step s ≠ .fault f)

/-! ### Decoding and the step -/

/-- R61, R62, R64: decode and encode agree. The decoder gives back every command the ports can carry; it is total, and what it reads is well
formed and has the presented code; STEP, RUN and REM ignore the operand ports: two port contents decode to the same command exactly if the
codes agree and, for INIT, the operands do. -/
def Obligations.DecodeAndEncodeAgree : Prop :=
  (∀ i : Instr, i.WellFormed = true → decode (encode i) = i) ∧
  (∀ c : CmdPort, (decode c).WellFormed = true ∧ (decode c).opCode = c.op) ∧
  (∀ c c' : CmdPort, decode c = decode c' ↔
    c.op = c'.op ∧ (c.op = 0b00#2 → c.lenIn = c'.lenIn ∧ c.lenOut = c'.lenOut))

/-- The four codes of the opcode table (R61) decode to their commands; that the operand ports then stand at 0 is the model's choice
(notes/assumptions/13.md). -/
def Obligations.TableCodesDecode : Prop :=
  decodeTableWord 8 0x0 = some (.init 0 0) ∧ decodeTableWord 8 0x1 = some .step ∧
  decodeTableWord 8 0x2 = some .run ∧ decodeTableWord 8 0x3 = some .rem

/-- R65, R48 item 4, R49: a step at which a command is accepted (no reset then, none before it completes) is that command run whole, with the
host's move taken off the list (the list is the model's, notes/assumptions/2.md); what the host presents while it is in progress has no effect,
which for a host that changes the command it presents meanwhile is the model's choice (U14, notes/assumptions/22.md). -/
def Obligations.AcceptedCommandRuns : Prop :=
  ∀ (s : State) (c : CmdPort) (busy : List Pins) (rest : List HostMove),
    s.script = .edge ⟨false, true, c⟩ busy :: rest → (∀ p ∈ busy, p.rst = false) →
    step s = exec (decode c) { s with script := rest } ∧
    step s = step { s with script := .edge ⟨false, true, c⟩ [] :: rest }

/-- R67. ENCODE expands to INIT then RUN; a listing's lines become the host's moves. -/
def Obligations.EncodeExpandsToInitRun : Prop :=
  ∀ a b : Nat, (ListingLine.encode a b).commands = [.init a b, .run] ∧
    (ListingLine.encode a b).moves =
      (ListingLine.command (.init a b)).moves ++ (ListingLine.command .run).moves

/-! ### Invariants over every step -/

/-- R86. Cursors and widths: the invariant holds after reset and after any INIT the ports can carry, in whatever state; every step keeps it; and
where a block is encoded no sum leaves the `AW` bits. -/
def Obligations.CursorInvariant : Prop :=
  (CursorInv State.reset ∧ RegsFit State.reset) ∧
  (∀ (a b : Nat) (s t : State), (Instr.init a b).WellFormed = true → exec (.init a b) s = .next t → CursorInv t ∧ RegsFit t) ∧
  (∀ s t : State, CursorInv s → RegsFit s → step s = .next t → CursorInv t ∧ RegsFit t) ∧
  (∀ s : State, CursorInv s → RegsFit s → avail s = true → FitsPort (s.ioff + 26) ∧ FitsPort (s.ooff + 32))

/-- The whole invariant holds right after reset (R32; the empty spaces are the model's choice, notes/assumptions/3.md). -/
def Obligations.InvariantAtReset : Prop := StateInv State.reset

/-- Every step keeps the canonical form of both byte spaces (the model's representation of `IN` and `OUT`, notes/assumptions/3.md), from any
state that has it. -/
def Obligations.MemoriesStayCanonical : Prop :=
  ∀ s t : State, MemoriesCanonical s → step s = .next t → MemoriesCanonical t

/-- Byte spaces in canonical form (the model's representation, notes/assumptions/3.md) that read the same at every offset are the same data. -/
def Obligations.CanonicalFormIsUnique : Prop :=
  ∀ m m' : Memory, m.wf = true → m'.wf = true → (∀ a, m.read a = m'.read a) → m = m'

/-- R10. `MemWrite(addr, n, v)` then `MemRead(addr, n)` gives `v`, and no other byte changes. -/
def Obligations.ReadBytesAfterWriteBytes : Prop :=
  ∀ (m : Memory) (a : Nat) (bs : List Byte),
    (m.writeBytes a bs).readBytes a bs.length = bs ∧
    ∀ x, x < a ∨ a + bs.length ≤ x → (m.writeBytes a bs).read x = m.read x

/-- R109. Per block 24 bytes are consumed and 32 produced, and `OOFF * 3 = IOFF * 4` holds after reset and is kept by every step. -/
def Obligations.RatioInvariant : Prop :=
  (∀ s t : State, avail s = true → exec .step s = .next t → t.ioff = s.ioff + 24 ∧ t.ooff = s.ooff + 32) ∧
  State.reset.ooff * 3 = State.reset.ioff * 4 ∧
  (∀ s t : State, s.ooff * 3 = s.ioff * 4 → step s = .next t → t.ooff * 3 = t.ioff * 4)

/-- R24. `EXH` by its formula, 1 after reset, reported in every response; once 1 it stays 1 at every step that accepts no INIT; in a state of
the invariant both of its subtractions are non-negative. -/
def Obligations.ExhaustedUntilNextInit : Prop :=
  (∀ s : State, exh s = true ↔ s.lenIn - s.ioff < 26 ∨ s.lenOut - s.ooff < 32) ∧
  exh State.reset = true ∧
  (∀ (i : Instr) (s t : State), exec i s = .next t → ∃ r, t.rsp = some r ∧ r.exh = exh t) ∧
  (∀ s t : State, exh s = true → step s = .next t → ¬ AcceptsInit s → exh t = true) ∧
  (∀ s : State, CursorInv s → s.ioff ≤ s.lenIn ∧ s.ooff ≤ s.lenOut)

/-- R21. `LEN_IN` and `LEN_OUT` change only at INIT and at reset. -/
def Obligations.LengthsChangeOnlyAtInitOrReset : Prop :=
  ∀ s t : State, step s = .next t → ¬ AcceptsInit s → ¬ Resets s → t.lenIn = s.lenIn ∧ t.lenOut = s.lenOut

/-- R22. Between two INITs (and resets) the cursors never decrease: they move together, by whole blocks; in a state of the invariant they are
`24*n` and `32*n` for the same `n`. -/
def Obligations.CursorsMoveByBlocks : Prop :=
  (∀ s t : State, step s = .next t → ¬ AcceptsInit s → ¬ Resets s →
    ∃ n : Nat, t.ioff = s.ioff + 24 * n ∧ t.ooff = s.ooff + 32 * n) ∧
  (∀ s : State, CursorInv s → s.ioff = 24 * (s.ioff / 24) ∧ s.ooff = 32 * (s.ioff / 24))

/-- R20, R63: in a state of the invariant every field of a response a step delivers is an `AW`-bit number. -/
def Obligations.ResponsesFitThePorts : Prop :=
  ∀ (s t : State) (r : Response), CursorInv s → RegsFit s → step s = .next t → t.rsp = some r → ResponseFits r

/-! ### The datapath -/

/-- R101. `BE64` as the sum of the rule, the example among it; the result is below `2^64`. -/
def Obligations.Be64IsTheSum : Prop :=
  (∀ b0 b1 b2 b3 b4 b5 b6 b7 : Byte,
    (be64 b0 b1 b2 b3 b4 b5 b6 b7).toNat =
      b0.toNat * 2 ^ 56 + b1.toNat * 2 ^ 48 + b2.toNat * 2 ^ 40 + b3.toNat * 2 ^ 32 +
      b4.toNat * 2 ^ 24 + b5.toNat * 2 ^ 16 + b6.toNat * 2 ^ 8 + b7.toNat ∧
    (be64 b0 b1 b2 b3 b4 b5 b6 b7).toNat ≤ 2 ^ 64 - 1) ∧
  be64 0x4D 0x61 0x6E 0 0 0 0 0 = 0x4D616E0000000000#64

/-- R69. Word `i` of the window: `W[63-8k : 56-8k] = win[6i + k]`, and `win[k] = IN[IOFF + k]` (R68). -/
def Obligations.WordLayout : Prop :=
  (∀ (win : List Byte) (i k : Nat), k < 8 → (loadw win i).extractLsb' (56 - 8 * k) 8 = win.getD (6 * i + k) 0) ∧
  (∀ (s : State) (k : Nat), k < 26 → (inputWindow s).getD k 0 = s.inMem.read (s.ioff + k)) ∧
  (∀ s : State, (inputWindow s).length = 26)

/-- R100: consecutive words overlap by two bytes, and the example. -/
def Obligations.ConsecutiveWordsOverlap : Prop :=
  (∀ (win : List Byte) (i : Nat), (loadw win i).extractLsb' 0 16 = (loadw win (i + 1)).extractLsb' 48 16) ∧
  loadw ((List.range 26).map (BitVec.ofNat 8)) 1 = 0x060708090A0B0C0D#64

/-- R102. EXTR is the slice `W[63-6j : 58-6j]`, with the shifts of the rule and its example. -/
def Obligations.ExtrIsTheSlice : Prop :=
  (∀ (w : Word) (j : Nat), j < 8 →
    extr w j = ((w >>> (64 - (j + 1) * 6)) &&& 0x3F#64).setWidth 6 ∧ extr w j = w.extractLsb' (58 - 6 * j) 6) ∧
  (List.range 8).map extrShift = [58, 52, 46, 40, 34, 28, 22, 16] ∧
  (List.range 8).map (extr 0x4D616E0000000000#64) = [19#6, 22#6, 5#6, 46#6, 0#6, 0#6, 0#6, 0#6]

/-- R103. (a) a group is at most 63; (b) the shift is between 16 and 58; (c) `W[15:0]` affects no group; (d) the eight groups, first
group most significant, are exactly `W[63:16]`. -/
def Obligations.ExtrProperties : Prop :=
  (∀ (w : Word) (j : Nat), ((w >>> extrShift j) &&& 0x3F#64).toNat ≤ 63 ∧
    (extr w j).toNat = ((w >>> extrShift j) &&& 0x3F#64).toNat) ∧
  (∀ j : Nat, j < 8 → 16 ≤ extrShift j ∧ extrShift j ≤ 58) ∧
  (∀ (w w' : Word) (j : Nat), j < 8 → w.extractLsb' 16 48 = w'.extractLsb' 16 48 → extr w j = extr w' j) ∧
  (∀ w : Word, w.extractLsb' 16 48 =
    extr w 0 ++ extr w 1 ++ extr w 2 ++ extr w 3 ++ extr w 4 ++ extr w 5 ++ extr w 6 ++ extr w 7)

/-- R104. The 6-bit value: `U6(b) = b & 0x3F = b[5:0]`, and `EXTR(W, j) = U6(trunc_8(W >> shift))`. -/
def Obligations.GroupIsLowSixBits : Prop :=
  (∀ b : Byte, u6 b = b.extractLsb' 0 6 ∧ (u6 b).toNat = b.toNat % 64) ∧
  (∀ (w : Word) (j : Nat), extr w j = u6 ((w >>> extrShift j).setWidth 8))

/-- R66, R105: entry `v` of the table is the bits `[8v+7 : 8v]` of the port, and a port built from any 64 bytes has byte `v` there, repeated
bytes or not. -/
def Obligations.AlphabetPortLayout : Prop :=
  (∀ (tbl : AlphaTbl) (v : Group) (t : Nat), t < 8 → (mapByte tbl v).getLsbD t = tbl.getLsbD (8 * v.toNat + t)) ∧
  (∀ (bs : List Byte) (v : Group), bs.length = 64 → mapByte (alphaOfBytes bs) v = bs.getD v.toNat 0)

/-- R106: the entries of the standard alphabet (the character codes are the spec's G1, general knowledge, notes/assumptions/17.md). -/
def Obligations.StandardAlphabetEntries : Prop :=
  ∀ v : Group,
    (v.toNat ≤ 25 → (mapByte alphaStd v).toNat = 0x41 + v.toNat) ∧
    (26 ≤ v.toNat → v.toNat ≤ 51 → (mapByte alphaStd v).toNat = 0x61 + (v.toNat - 26)) ∧
    (52 ≤ v.toNat → v.toNat ≤ 61 → (mapByte alphaStd v).toNat = 0x30 + (v.toNat - 52)) ∧
    (v.toNat = 62 → mapByte alphaStd v = 0x2B#8) ∧ (v.toNat = 63 → mapByte alphaStd v = 0x2F#8)

/-- R107. ENCBLK by its loops: byte `8*i + j` is `MAP(EXTR(LOADW(win, i), j))`; (a) window bytes 24 and 25 never matter; (b) zero bytes give
`ALPHA[0]`, `0xFF` bytes `ALPHA[63]`; (c) the three-byte law. -/
def Obligations.BlockKernel : Prop :=
  (∀ (tbl : AlphaTbl) (win : List Byte),
    (encblk tbl win).length = 32 ∧
    ∀ i j, i < 4 → j < 8 → (encblk tbl win).getD (8 * i + j) 0 = mapByte tbl (extr (loadw win i) j)) ∧
  (∀ (tbl : AlphaTbl) (win win' : List Byte), (∀ k, k < 24 → win.getD k 0 = win'.getD k 0) → encblk tbl win = encblk tbl win') ∧
  (∀ (tbl : AlphaTbl) (win : List Byte), (∀ k, k < 24 → win.getD k 0 = 0x00#8) →
    encblk tbl win = List.replicate 32 (mapByte tbl 0#6)) ∧
  (∀ (tbl : AlphaTbl) (win : List Byte), (∀ k, k < 24 → win.getD k 0 = 0xFF#8) →
    encblk tbl win = List.replicate 32 (mapByte tbl 63#6)) ∧
  (∀ (tbl : AlphaTbl) (win : List Byte) (t : Nat), t < 8 →
    ((encblk tbl win).drop (4 * t)).take 4 =
      [ mapByte tbl ((win.getD (3 * t) 0).extractLsb' 2 6),
        mapByte tbl ((win.getD (3 * t) 0).extractLsb' 0 2 ++ (win.getD (3 * t + 1) 0).extractLsb' 4 4),
        mapByte tbl ((win.getD (3 * t + 1) 0).extractLsb' 0 4 ++ (win.getD (3 * t + 2) 0).extractLsb' 6 2),
        mapByte tbl ((win.getD (3 * t + 2) 0).extractLsb' 0 6) ])

/-- R72. The flat view of a block: byte `m` is `ALPHA[S[191-6m : 186-6m]]` for the 192-bit string `S` of window bytes 0 to 23; per byte,
with `q = (6m) div 8` and `r = (6m) mod 8`, the group is `trunc_6((win[q] ++ win[q+1]) >> (10 - r))`; window bytes 24 and 25 have no influence. -/
def Obligations.BlockIsFlatRegrouping : Prop :=
  (∀ (tbl : AlphaTbl) (win : List Byte), encblk tbl win = encblkFlat tbl win) ∧
  (∀ (tbl : AlphaTbl) (win : List Byte) (m : Nat), m < 32 →
    (encblk tbl win).getD m 0 =
      mapByte tbl
        (((win.getD (6 * m / 8) 0 ++ win.getD (6 * m / 8 + 1) 0 : BitVec 16) >>> (10 - 6 * m % 8)).setWidth 6)) ∧
  (∀ (tbl : AlphaTbl) (win : List Byte) (x y : Byte), win.length = 24 → encblk tbl (win ++ [x, y]) = encblk tbl win)

/-- R129, R107 c: the kernel that works three bytes at a time is another strategy with byte-identical output. -/
def Obligations.TripleKernelSubstitutable : Prop :=
  ∀ (tbl : AlphaTbl) (win : List Byte), encblkTriples tbl win = encblk tbl win

/-- R71. A STEP that yields puts the byte for group `j` of word `i` at window index `8*i + j`; each window index belongs to exactly one `(i, j)`. -/
def Obligations.OutputWindowLayout : Prop :=
  (∀ s : State, avail s = true → ∃ t, exec .step s = .next t ∧
    ∀ i j, i < 4 → j < 8 →
      t.outMem.read (s.ooff + (8 * i + j)) = mapByte s.alphaTbl (extr (loadw (inputWindow s) i) j)) ∧
  (∀ m, m < 32 → ∃! p : Nat × Nat, p.1 < 4 ∧ p.2 < 8 ∧ 8 * p.1 + p.2 = m)

/-! ### The encode call -/

/-- R126. ENCODE `a`, `b` from any state: registers, output, response; the output is the continuous regrouping of the consumed input into 6-bit
groups (R124), and every byte from `32N` up is unchanged. -/
def Obligations.EncodeCallResult : Prop :=
  ∀ (a b : Nat) (s : State),
    ∃ t, execAll (encodeCall a b) s = .next t ∧
      t.lenIn = a ∧ t.lenOut = b ∧
      t.ioff = 24 * min ((a - 2) / 24) (b / 32) ∧ t.ooff = 32 * min ((a - 2) / 24) (b / 32) ∧
      (∀ m, m < 32 * min ((a - 2) / 24) (b / 32) → t.outMem.read m = mapByte s.alphaTbl (streamGroup s.inMem m)) ∧
      (∀ m, 32 * min ((a - 2) / 24) (b / 32) ≤ m → t.outMem.read m = s.outMem.read m) ∧
      t.rsp = some
        { yielded := false, exh := true
          inOff := 24 * min ((a - 2) / 24) (b / 32), inRem := a - 24 * min ((a - 2) / 24) (b / 32)
          outOff := 32 * min ((a - 2) / 24) (b / 32), outRem := b - 32 * min ((a - 2) / 24) (b / 32) }

/-- R124: the state after RUN in closed form. From a state of the invariant with `n0` blocks done, RUN encodes exactly the blocks `n0` to `N-1`,
each into its own output window, and ends at `24*N`, `32*N`. -/
def Obligations.RunClosedForm : Prop :=
  ∀ s : State, CursorInv s →
    s.ioff / 24 ≤ blockCount s.lenIn s.lenOut ∧
    ∃ t, exec .run s = .next t ∧
      t.ioff = 24 * blockCount s.lenIn s.lenOut ∧ t.ooff = 32 * blockCount s.lenIn s.lenOut ∧
      (∀ n m, s.ioff / 24 ≤ n → n < blockCount s.lenIn s.lenOut → m < 32 →
        t.outMem.read (32 * n + m) = (encblk s.alphaTbl (s.inMem.readBytes (24 * n) 26)).getD m 0) ∧
      (∀ x, x < 32 * (s.ioff / 24) ∨ 32 * blockCount s.lenIn s.lenOut ≤ x → t.outMem.read x = s.outMem.read x)

/-- R124: RUN is as many yielding STEPs as blocks are left (`N - n0` in a state of the invariant), followed by REM; R123 b: RUN after some STEPs is
the RUN that would have been without them. -/
def Obligations.RunIsStepsThenRem : Prop :=
  (∀ s : State, execAll (List.replicate (blocksLeft s) .step ++ [.rem]) s = exec .run s) ∧
  (∀ (s : State) (k : Nat), k < blocksLeft s →
    ∃ t r, execAll (List.replicate (k + 1) .step) s = .next t ∧ t.rsp = some r ∧ r.yielded = true) ∧
  (∀ (s : State) (k : Nat), execAll (List.replicate k .step ++ [.run]) s = exec .run s) ∧
  (∀ s : State, CursorInv s → blocksLeft s = blockCount s.lenIn s.lenOut - s.ioff / 24)

/-- R90. After INIT the host may step as often as it likes: exactly `N = min(N_in, N_out)` STEPs yield, and the cursors stop at `24N`, `32N`. -/
def Obligations.NumberOfWindowPairs : Prop :=
  (∀ (a b k : Nat) (s : State),
    ∃ t, execAll (.init a b :: List.replicate k .step) s = .next t ∧
      t.ioff = 24 * min k (min ((a - 2) / 24) (b / 32)) ∧ t.ooff = 32 * min k (min ((a - 2) / 24) (b / 32)) ∧
      (exh t = true ↔ min ((a - 2) / 24) (b / 32) ≤ k) ∧
      ∃ r, t.rsp = some r ∧ r.yielded = (decide (0 < k) && decide (k ≤ min ((a - 2) / 24) (b / 32)))) ∧
  (∀ a : Nat, (a ≤ 25 → blocksIn a = 0) ∧ (26 ≤ a → a ≤ 49 → blocksIn a = 1) ∧ (50 ≤ a → a ≤ 73 → blocksIn a = 2) ∧
    (74 ≤ a → a ≤ 97 → blocksIn a = 3))

/-- R91. The remainders after ENCODE: with the input the limiting side, `2 + ((a - 2) mod 24)` input bytes are left, from 2 to 25, or all of
them when there are fewer than 2; with the output limiting, at least 26 input bytes and fewer than 32 output bytes. -/
def Obligations.RemainderSizes : Prop :=
  ∀ (a b : Nat) (s : State), ∃ t r, execAll (encodeCall a b) s = .next t ∧ t.rsp = some r ∧
    ((a - 2) / 24 ≤ b / 32 →
      (2 ≤ a → r.inRem = 2 + (a - 2) % 24 ∧ 2 ≤ r.inRem ∧ r.inRem ≤ 25) ∧ (a < 2 → r.inRem = a)) ∧
    (b / 32 < (a - 2) / 24 → r.inRem = a - 24 * (b / 32) ∧ 26 ≤ r.inRem ∧ r.outRem = b % 32 ∧ r.outRem < 32)

/-- R143: the shortfall is visible: after ENCODE, `in_rem >= 26` exactly when only the output side stopped the call; no byte at or beyond
`LEN_OUT` is written. -/
def Obligations.ShortfallIsVisible : Prop :=
  ∀ (a b : Nat) (s : State), ∃ t r, execAll (encodeCall a b) s = .next t ∧ t.rsp = some r ∧ r.exh = true ∧
    (26 ≤ r.inRem ↔ b / 32 < (a - 2) / 24) ∧ (∀ x, b ≤ x → t.outMem.read x = s.outMem.read x)

/-- R92, R163 (`CapacityOk`): with the capacity of the source's contract, or with the exact one, ENCODE stops only for want of input; with less
than the exact one it does not encode every full block. -/
def Obligations.CapacityContract : Prop :=
  (∀ a b : Nat, 32 * (a / 24) ≤ b → CapacityOk a b) ∧
  (∀ (a b : Nat) (s : State), ∃ t, execAll (encodeCall a b) s = .next t ∧
    (CapacityOk a b ↔ t.ioff = 24 * ((a - 2) / 24)) ∧ (CapacityOk a b → t.lenIn - t.ioff < 26))

/-- R82. An input shorter than one chunk, or an output shorter than one window: after INIT, whatever STEPs, RUNs and REMs follow, no register moves,
`OUT` is not written, and the remainders are the whole buffers. -/
def Obligations.ShortBuffersYieldNothing : Prop :=
  ∀ (a b : Nat) (is : List Instr) (s : State), (a < 26 ∨ b < 32) → (∀ i ∈ is, i = .step ∨ i = .run ∨ i = .rem) →
    execAll (.init a b :: is) s = .next { s with
      lenIn := a, lenOut := b, ioff := 0, ooff := 0
      rsp := some { yielded := false, exh := true, inOff := 0, inRem := a, outOff := 0, outRem := b } }

/-- R89. Any number of REMs in a row answer alike and change nothing else; so do STEP, RUN and REM in any order once `EXH = 1`. -/
def Obligations.RemaindersAreIdempotent : Prop :=
  (∀ (s : State) (n : Nat), execAll (List.replicate (n + 1) .rem) s = .next (respond false s)) ∧
  (∀ (s : State) (i : Instr) (is : List Instr), exh s = true → (∀ j ∈ i :: is, j = .step ∨ j = .run ∨ j = .rem) →
    execAll (i :: is) s = .next (respond false s))

/-! ### Bounds, independence, isolation -/

/-- R87. Every access is inside the buffers: for every command in every state, reads of `IN` end at or below `LEN_IN`, writes of `OUT` are below
`LEN_OUT`; a block step's are in the two windows. -/
def Obligations.AccessesStayInside : Prop :=
  (∀ (i : Instr) (s : State), ∀ x ∈ accesses i s, x.InBounds s.lenIn s.lenOut) ∧
  (∀ (s : State) (off n : Nat), Access.readIn off n ∈ accesses .step s →
    s.ioff ≤ off ∧ off + n ≤ s.ioff + 26 ∧ s.ioff + 26 ≤ s.lenIn) ∧
  (∀ (s : State) (off : Nat), Access.writeOut off ∈ accesses .step s →
    s.ooff ≤ off ∧ off ≤ s.ooff + 31 ∧ s.ooff + 32 ≤ s.lenOut)

/-- R163, R167, R168, R170: with the lengths true, every access of every command is in memory that is really there; with the buffers placed in one
physical memory and disjoint, no address a command writes is one it reads, nor one of the `OUT` region of another open call. -/
def Obligations.PremisesKeepAccessesApart : Prop :=
  (∀ (i : Instr) (s : State) (sizeIn sizeOut : Nat), LengthsTrue sizeIn sizeOut s →
    ∀ x ∈ accesses i s, x.InBounds sizeIn sizeOut) ∧
  (∀ (i : Instr) (s : State) (p : Placement), BuffersDisjoint p s →
    ∀ o, Access.writeOut o ∈ accesses i s →
      (∀ off n, Access.readIn off n ∈ accesses i s → ¬ (Region.mk (p.inBase + off) n).Holds (p.outBase + o)) ∧
      (∀ r ∈ p.otherOuts, ¬ r.Holds (p.outBase + o)))

/-- R87, R143, R48 item 3: no command changes a byte of `OUT` at or beyond `LEN_OUT`, nor one below the cursor (what the call has produced is
not written again), nor one that no access of its list writes. -/
def Obligations.OutputWritesBounded : Prop :=
  ∀ (i : Instr) (s t : State), exec i s = .next t →
    (∀ a, s.lenOut ≤ a → t.outMem.read a = s.outMem.read a) ∧
    (∀ a, a < s.ooff → t.outMem.read a = s.outMem.read a) ∧
    (∀ a, Access.writeOut a ∉ accesses i s → t.outMem.read a = s.outMem.read a)

/-- R87, R40: bytes of `IN` at or beyond `LEN_IN` have no influence: two states that differ only there give the same outcome. And the list of
accesses names every read: what none of its reads of `IN` and of `ALPHA` covers has no influence either. -/
def Obligations.InputBeyondLengthIrrelevant : Prop :=
  (∀ (i : Instr) (s t : State) (m : Memory), (∀ a, a < s.lenIn → m.read a = s.inMem.read a) → exec i s = .next t →
    exec i { s with inMem := m } = .next { t with inMem := m }) ∧
  (∀ (i : Instr) (s t : State) (m : Memory) (tbl : AlphaTbl),
    (∀ off n, Access.readIn off n ∈ accesses i s → ∀ k, k < n → m.read (off + k) = s.inMem.read (off + k)) →
    (∀ v, Access.readAlpha v ∈ accesses i s → mapByte tbl v = mapByte s.alphaTbl v) → exec i s = .next t →
    exec i { s with inMem := m, alphaTbl := tbl } = .next { t with inMem := m, alphaTbl := tbl })

/-- R72, R103 c, R88 corner 2: the two bytes a RUN reads ahead of its last block have no influence: input bytes from the final `IOFF` up may differ. -/
def Obligations.RemainderBytesUnused : Prop :=
  ∀ (s t : State) (m : Memory), exec .run s = .next t → (∀ a, a < t.ioff → m.read a = s.inMem.read a) →
    exec .run { s with inMem := m } = .next { t with inMem := m }

/-- R128, R172: the sequence of accesses (kinds, addresses and widths) of a command depends on the registers only, not on the data. -/
def Obligations.AccessPatternIgnoresData : Prop :=
  ∀ (i : Instr) (s s' : State),
    s'.lenIn = s.lenIn → s'.lenOut = s.lenOut → s'.ioff = s.ioff → s'.ooff = s.ooff →
    (accesses i s').map Access.shape = (accesses i s).map Access.shape

/-- R26, R28, R47, R163: while a call is open no step, whatever the host does, changes `IN` or `ALPHA` (the model refuses the host's writes,
notes/assumptions/7.md), and an edge at which no command is accepted leaves `OUT` too. -/
def Obligations.OpenCallIsIsolated : Prop :=
  ∀ s t : State, callOpen s = true → step s = .next t →
    AlphaStable s t ∧ InStable s t ∧ t.inMem = s.inMem ∧ OutExclusive s ∧
    (∀ off bytes, s.script.head? ≠ some (.writeOut off bytes)) ∧
    ((∀ p busy rest, s.script = .edge p busy :: rest → p.valid = false ∨ p.rst = true) → t.outMem = s.outMem)

/-- R47, R166, U5: while a call is open, a host that changes `ALPHA` or writes `IN` or `OUT` is refused, by name. To refuse is
the model's choice among those U5 leaves (notes/assumptions/7.md). -/
def Obligations.HostWritesRefusedDuringCall : Prop :=
  ∀ (s : State) (rest : List HostMove), callOpen s = true →
    (∀ tbl, tbl ≠ s.alphaTbl → s.script = .driveAlpha tbl :: rest → step s = .refused .hostChangedAlpha) ∧
    (∀ off bytes, s.script = .writeIn off bytes :: rest → step s = .refused .hostWroteIn) ∧
    (∀ off bytes, s.script = .writeOut off bytes :: rest → step s = .refused .hostWroteOut)

/-- R152, R132, R53: with no call open the host configures, prepares and handles the tail: its bytes stand where it puts them, nothing else changes,
and the registers are held. -/
def Obligations.HostPreparesWhileClosed : Prop :=
  ∀ (s : State) (rest : List HostMove), callOpen s = false →
    (∀ tbl, s.script = .driveAlpha tbl :: rest → step s = .next { s with rsp := none, script := rest, alphaTbl := tbl }) ∧
    (∀ off bytes, s.script = .writeIn off bytes :: rest →
      step s = .next { s with rsp := none, script := rest, inMem := s.inMem.writeBytes off bytes }) ∧
    (∀ off bytes, s.script = .writeOut off bytes :: rest →
      step s = .next { s with rsp := none, script := rest, outMem := s.outMem.writeBytes off bytes })

/-- R47 (that `callOpen` is read off `EXH` is DEDUCED, notes/assumptions/8.md): after a command a call is open exactly when its response says
`exh = 0`; after a reset none is; a step that neither completes a command nor resets leaves it open or closed as it was; and a step that accepts
no INIT opens none. -/
def Obligations.CallOpensOnlyAtInit : Prop :=
  (∀ (i : Instr) (s t : State), exec i s = .next t → ∃ r, t.rsp = some r ∧ callOpen t = !r.exh) ∧
  (∀ s t : State, Resets s → step s = .next t → callOpen t = false) ∧
  (∀ s t : State, (∀ c rest, ¬ Accepts s c rest) → ¬ Resets s → step s = .next t → callOpen t = callOpen s) ∧
  (∀ s t : State, callOpen s = false → ¬ AcceptsInit s → step s = .next t → callOpen t = false)

/-! ### Reset and idle -/

/-- R160, R145: an edge with `rst = 1` resets the four registers whatever is presented; no response is pending; `IN`, `OUT` and `ALPHA` keep what
they hold; edges after it are edges of their own, each with none inside its command (the list of moves is the model's, notes/assumptions/2.md and
23.md). -/
def Obligations.ResetEdge : Prop :=
  ∀ (s : State) (p : Pins) (busy : List Pins) (rest : List HostMove), s.script = .edge p busy :: rest → p.rst = true →
    step s = .next { s with
      lenIn := 0, lenOut := 0, ioff := 0, ooff := 0, rsp := none
      script := busy.map (fun q => HostMove.edge q []) ++ rest }

/-- R32: the state after reset: registers 0, `EXH` 1, nothing pending; from it (and from any state with these registers) STEP yields nothing, RUN does
nothing and REM reports two empty remainders. -/
def Obligations.AfterReset : Prop :=
  (State.reset.lenIn = 0 ∧ State.reset.lenOut = 0 ∧ State.reset.ioff = 0 ∧ State.reset.ooff = 0 ∧
    State.reset.rsp = none ∧ State.reset.script = [] ∧ exh State.reset = true) ∧
  (∀ s : State, s.lenIn = 0 → s.lenOut = 0 → s.ioff = 0 → s.ooff = 0 →
    ∀ i : Instr, i = .step ∨ i = .run ∨ i = .rem →
      exec i s = .next { s with
        rsp := some { yielded := false, exh := true, inOff := 0, inRem := 0, outOff := 0, outRem := 0 } })

/-- R161. A reset while a command is in progress: no response, the registers at their reset values, and `t` the state the command would have
left: each byte of `OUT` in the windows it was going to write holds the old or the would-be byte, with no promise which; every other byte is
unchanged; `IN` and `ALPHA` keep what they hold. The windows are empty for INIT, REM and a STEP that does not yield, `OUT[OOFF .. OOFF+31]` for a
STEP that does, and `OUT[OOFF .. OOFF + 32 * blocks left - 1]` for a RUN, which is `OUT[32*n0 .. 32*N-1]` in a state of the invariant. The edges
after the aborting one, the first with `rst = 1`, are edges of their own (R160: `cmd_ready` is 1 again; that they go back to the head of the list
of moves, each with none inside its command, and that the count of draws goes up by one, are the model's, notes/assumptions/9.md, 18.md and 23.md). -/
def Obligations.ResetAbortsCommand : Prop :=
  ∀ (s : State) (c : CmdPort) (busy : List Pins) (rest : List HostMove),
    s.script = .edge ⟨false, true, c⟩ busy :: rest → (∃ q ∈ busy, q.rst = true) →
    ∃ u t, exec (decode c) { s with script := rest } = .next u ∧ step s = .next t ∧
      t.lenIn = 0 ∧ t.lenOut = 0 ∧ t.ioff = 0 ∧ t.ooff = 0 ∧ t.rsp = none ∧ t.inMem = s.inMem ∧ t.alphaTbl = s.alphaTbl ∧
      (∃ before q later, busy = before ++ q :: later ∧ (∀ p ∈ before, p.rst = false) ∧ q.rst = true ∧
        t.script = later.map (fun p => HostMove.edge p []) ++ rest) ∧ t.draws = s.draws + 1 ∧
      (∀ x, t.outMem.read x = s.outMem.read x ∨ t.outMem.read x = u.outMem.read x) ∧
      (∀ x, (decode c = .step → avail s = false ∨ x < s.ooff ∨ s.ooff + 32 ≤ x) →
        (decode c = .run → x < s.ooff ∨ s.ooff + 32 * blocksLeft s ≤ x) → t.outMem.read x = s.outMem.read x) ∧
      (CursorInv s → s.ooff = 32 * (s.ioff / 24) ∧ s.ooff + 32 * blocksLeft s = 32 * blockCount s.lenIn s.lenOut)

/-- R151, R23: with nothing presented the engine is idle: registers, spaces and table are held and no response is on the ports; edges after such
an edge are edges of their own, each with none inside its command (the list of moves is the model's, notes/assumptions/18.md and 23.md). -/
def Obligations.IdleHoldsRegisters : Prop :=
  (∀ s : State, s.script = [] → step s = .next { s with rsp := none }) ∧
  (∀ (s : State) (p : Pins) (busy : List Pins) (rest : List HostMove), s.script = .edge p busy :: rest →
    p.rst = false → p.valid = false →
    step s = .next { s with rsp := none, script := busy.map (fun q => HostMove.edge q []) ++ rest })
end

