-- ==== Sys2Proof/Laws/Decode.lean ====
section
/-! SUPPORT. The decoder at each of the four codes (R61), and that what it reads is well formed (R62, R64). -/

namespace Sys2Proof

theorem decode_init (p q : BitVec Config.AW) : decode ⟨0b00#2, p, q⟩ = .init p.toNat q.toNat := by
  simp [decode, portValue]

theorem decode_step (p q : BitVec Config.AW) : decode ⟨0b01#2, p, q⟩ = .step := by simp [decode]

theorem decode_run (p q : BitVec Config.AW) : decode ⟨0b10#2, p, q⟩ = .run := by simp [decode]

theorem decode_rem (p q : BitVec Config.AW) : decode ⟨0b11#2, p, q⟩ = .rem := by simp [decode]

/-- Every code is one of the four (R64). -/
theorem op_cases (op : BitVec 2) : op = 0b00#2 ∨ op = 0b01#2 ∨ op = 0b10#2 ∨ op = 0b11#2 := by
  revert op; decide

theorem fitsPort_toNat (p : BitVec Config.AW) : FitsPort p.toNat := p.isLt

theorem fitsPort_zero : FitsPort 0 := Nat.two_pow_pos _

theorem fitsPort_of_le {a b : Nat} (h : a ≤ b) (hb : FitsPort b) : FitsPort a := Nat.lt_of_le_of_lt h hb

/-- `AW` is at least 6 (R7). -/
theorem six_le_AW : 6 ≤ Config.AW := Nat.le_add_right _ _

/-- Every length up to 63 fits the ports, whatever `AW` is (R7). -/
theorem fitsPort_of_lt_64 {n : Nat} (h : n < 64) : FitsPort n :=
  Nat.lt_of_lt_of_le (show n < 2 ^ 6 from h) (Nat.pow_le_pow_right (by decide) six_le_AW)

theorem wellFormed_init (a b : Nat) : (Instr.init a b).WellFormed = true ↔ FitsPort a ∧ FitsPort b := by
  simp [Instr.WellFormed]

end Sys2Proof
end

