-- ==== Sys2Proof/Laws/Memory.lean ====
section
/-! SUPPORT. The laws of the byte spaces: a read after a write, blocks of bytes, the canonical form and its uniqueness. -/

namespace Sys2Proof.Machine

@[simp] theorem Memory.read_nil (x : Nat) : Memory.read [] x = Config.unlistedByte := rfl

theorem Memory.read_erase (m : Memory) (x y : Nat) :
    (m.erase x).read y = if x = y then Config.unlistedByte else m.read y := by
  induction m with
  | nil => simp [Memory.erase]
  | cons c m ih =>
    obtain ⟨a, b⟩ := c
    simp only [Memory.erase] at ih ⊢
    by_cases hax : a = x
    · subst hax
      simp only [ne_eq, not_true_eq_false, decide_false, Bool.false_eq_true, not_false_eq_true, List.filter_cons_of_neg, ih,
        Memory.read]
      split <;> rfl
    · simp only [ne_eq, hax, not_false_eq_true, decide_true, List.filter_cons_of_pos, Memory.read, ih]
      split <;> split <;> simp_all

theorem Memory.read_insert (m : Memory) (x : Nat) (v : Byte) (y : Nat) :
    (m.insert x v).read y = if x = y then v else m.read y := by
  induction m with
  | nil => simp [Memory.insert, Memory.read]
  | cons c m ih =>
    obtain ⟨a, b⟩ := c
    simp only [Memory.insert]
    split
    · simp [Memory.read]
    · split
      · subst x; simp only [Memory.read]; split <;> rfl
      · simp only [Memory.read, ih]
        split <;> split <;> simp_all

/-- A read after a write: the value written at its place, every other place as it was. -/
theorem Memory.read_write (m : Memory) (x : Nat) (v : Byte) (y : Nat) :
    (m.write x v).read y = if x = y then v else m.read y := by
  simp only [Memory.write]
  split
  · next h => rw [Memory.read_erase, h]
  · rw [Memory.read_insert]

/-- A read after a block of bytes is written. -/
theorem Memory.read_writeBytes (m : Memory) (a : Nat) (bs : List Byte) (x : Nat) :
    (m.writeBytes a bs).read x = if a ≤ x ∧ x < a + bs.length then bs.getD (x - a) 0 else m.read x := by
  induction bs generalizing m a with
  | nil =>
    simp only [Memory.writeBytes, List.length_nil, Nat.add_zero]
    rw [if_neg (by omega)]
  | cons b bs ih =>
    rw [Memory.writeBytes, ih, Memory.read_write, List.length_cons]
    by_cases hx : a = x
    · subst hx; simp
    · by_cases h : a + 1 ≤ x ∧ x < a + 1 + bs.length
      · obtain ⟨k, hk⟩ : ∃ k, x - a = k + 1 := ⟨x - a - 1, by omega⟩
        rw [if_pos h, if_pos (by omega), hk, List.getD_cons_succ]
        congr 1; omega
      · rw [if_neg h, if_neg hx, if_neg (by omega)]

@[simp] theorem Memory.length_readBytes (m : Memory) (a n : Nat) : (m.readBytes a n).length = n := by
  induction n generalizing a with
  | zero => rfl
  | succ n ih => simp [Memory.readBytes, ih]

theorem Memory.getD_readBytes (m : Memory) (a n k : Nat) (h : k < n) (d : Byte) :
    (m.readBytes a n).getD k d = m.read (a + k) := by
  induction n generalizing a k with
  | zero => omega
  | succ n ih =>
    cases k with
    | zero => rfl
    | succ k => rw [Memory.readBytes, List.getD_cons_succ, ih _ _ (by omega)]; congr 1; omega

/-- Reading a block of bytes depends on those bytes only. -/
theorem Memory.readBytes_congr {m m' : Memory} {a n : Nat} (h : ∀ x, a ≤ x → x < a + n → m.read x = m'.read x) :
    m.readBytes a n = m'.readBytes a n := by
  induction n generalizing a with
  | zero => rfl
  | succ n ih =>
    rw [Memory.readBytes, Memory.readBytes, h a (by omega) (by omega), ih (fun x h1 h2 => h x (by omega) (by omega))]

/-! ### The canonical form -/

theorem Memory.wf_cons (a : Nat) (b : Byte) (m : Memory) :
    Memory.wf ((a, b) :: m) = true ↔ b ≠ Config.unlistedByte ∧ (∀ c ∈ m, a < c.1) ∧ m.wf = true := by
  simp [Memory.wf, and_assoc]

theorem Memory.wf_erase {m : Memory} (h : m.wf = true) (x : Nat) : (m.erase x).wf = true := by
  induction m with
  | nil => rfl
  | cons c m ih =>
    obtain ⟨a, b⟩ := c
    rw [Memory.wf_cons] at h
    simp only [Memory.erase] at ih ⊢
    by_cases hax : a = x
    · rw [List.filter_cons_of_neg (by simp [hax])]; exact ih h.2.2
    · rw [List.filter_cons_of_pos (by simp [hax]), Memory.wf_cons]
      exact ⟨h.1, fun c hc => h.2.1 c (List.mem_of_mem_filter hc), ih h.2.2⟩

theorem Memory.mem_insert {m : Memory} {x : Nat} {v : Byte} {c : Host.Cell} (h : c ∈ m.insert x v) :
    c = (x, v) ∨ c ∈ m := by
  induction m with
  | nil => simpa [Memory.insert] using h
  | cons d m ih =>
    obtain ⟨a, b⟩ := d
    simp only [Memory.insert] at h
    split at h
    · simpa using h
    · split at h
      · rcases List.mem_cons.1 h with h | h
        · exact .inl h
        · exact .inr (List.mem_cons_of_mem _ h)
      · rcases List.mem_cons.1 h with h | h
        · exact .inr (h ▸ List.mem_cons_self)
        · exact (ih h).imp id (List.mem_cons_of_mem _)

theorem Memory.wf_insert {m : Memory} (h : m.wf = true) (x : Nat) {v : Byte} (hv : v ≠ Config.unlistedByte) :
    (m.insert x v).wf = true := by
  induction m with
  | nil => simp [Memory.insert, Memory.wf, hv]
  | cons c m ih =>
    obtain ⟨a, b⟩ := c
    have h' := (Memory.wf_cons a b m).1 h
    simp only [Memory.insert]
    split
    · next hlt =>
      rw [Memory.wf_cons]
      refine ⟨hv, fun c hc => ?_, h⟩
      rcases List.mem_cons.1 hc with rfl | hc
      · exact hlt
      · exact hlt.trans (h'.2.1 c hc)
    · split
      · next heq => subst heq; rw [Memory.wf_cons]; exact ⟨hv, h'.2.1, h'.2.2⟩
      · rw [Memory.wf_cons]
        refine ⟨h'.1, fun c hc => ?_, ih h'.2.2⟩
        rcases Memory.mem_insert hc with rfl | hc
        · simp only; omega
        · exact h'.2.1 c hc

/-- A write keeps the canonical form. -/
theorem Memory.wf_write {m : Memory} (h : m.wf = true) (x : Nat) (v : Byte) : (m.write x v).wf = true := by
  simp only [Memory.write]
  split
  · exact Memory.wf_erase h x
  · next hv => exact Memory.wf_insert h x hv

theorem Memory.wf_writeBytes {m : Memory} (h : m.wf = true) (a : Nat) (bs : List Byte) : (m.writeBytes a bs).wf = true := by
  induction bs generalizing m a with
  | nil => exact h
  | cons b bs ih => exact ih (Memory.wf_write h a b) (a + 1)

theorem Memory.wf_drawBytes (k : Nat) {m : Memory} (h : m.wf = true) (m' : Memory) (a n : Nat) :
    (drawBytes k m m' a n).wf = true := by
  induction n generalizing a with
  | zero => exact h
  | succ n ih =>
    simp only [drawBytes]
    split
    · exact Memory.wf_write (ih _) _ _
    · exact ih _

/-- `OUT` after an aborted command (R161): outside the windows every byte is the old one; inside, the old or the new one. -/
theorem Memory.read_drawBytes (k : Nat) (m m' : Memory) (a n x : Nat) :
    (drawBytes k m m' a n).read x =
      if a ≤ x ∧ x < a + n ∧ Config.abortedByteWritten k x = true then m'.read x else m.read x := by
  induction n generalizing a with
  | zero =>
    rw [if_neg (by omega)]
    rfl
  | succ n ih =>
    simp only [drawBytes]
    by_cases hx : a = x
    · subst hx
      by_cases hd : Config.abortedByteWritten k a = true
      · rw [if_pos hd, Memory.read_write, if_pos rfl, if_pos ⟨le_refl _, by omega, hd⟩]
      · rw [if_neg hd, ih, if_neg (by omega), if_neg (by tauto)]
    · have hcond : (a ≤ x ∧ x < a + (n + 1) ∧ Config.abortedByteWritten k x = true) ↔
          (a + 1 ≤ x ∧ x < a + 1 + n ∧ Config.abortedByteWritten k x = true) := by
        constructor <;> rintro ⟨h1, h2, h3⟩ <;> exact ⟨by omega, by omega, h3⟩
      by_cases hd : Config.abortedByteWritten k a = true
      · rw [if_pos hd, Memory.read_write, if_neg hx, ih]; simp only [hcond]
      · rw [if_neg hd, ih]; simp only [hcond]

/-- An offset below every listed one reads as unlisted. -/
theorem Memory.read_of_lt {m : Memory} {x : Nat} (h : ∀ c ∈ m, x < c.1) : m.read x = Config.unlistedByte := by
  induction m with
  | nil => rfl
  | cons c m ih =>
    obtain ⟨a, b⟩ := c
    have ha : x < a := h (a, b) List.mem_cons_self
    rw [Memory.read, if_neg (by omega)]
    exact ih fun c hc => h c (List.mem_cons_of_mem _ hc)

theorem Memory.read_head {a : Nat} {b : Byte} {m : Memory} : Memory.read ((a, b) :: m) a = b := by simp [Memory.read]

end Sys2Proof.Machine
end

