-- ==== Sys2Proof/Laws/State.lean ====
section
/-! SUPPORT. For every shared update of the state, what each field reads after it: one lemma a field, so that no later proof
unfolds a record update. -/

namespace Sys2Proof.Machine

@[simp] theorem resetRegs_lenIn (s : State) : (resetRegs s).lenIn = 0 := rfl
@[simp] theorem resetRegs_lenOut (s : State) : (resetRegs s).lenOut = 0 := rfl
@[simp] theorem resetRegs_ioff (s : State) : (resetRegs s).ioff = 0 := rfl
@[simp] theorem resetRegs_ooff (s : State) : (resetRegs s).ooff = 0 := rfl
@[simp] theorem resetRegs_inMem (s : State) : (resetRegs s).inMem = s.inMem := rfl
@[simp] theorem resetRegs_outMem (s : State) : (resetRegs s).outMem = s.outMem := rfl
@[simp] theorem resetRegs_alphaTbl (s : State) : (resetRegs s).alphaTbl = s.alphaTbl := rfl
@[simp] theorem resetRegs_rsp (s : State) : (resetRegs s).rsp = none := rfl
@[simp] theorem resetRegs_script (s : State) : (resetRegs s).script = s.script := rfl
@[simp] theorem resetRegs_draws (s : State) : (resetRegs s).draws = s.draws := rfl

@[simp] theorem idle_lenIn (s : State) : (idle s).lenIn = s.lenIn := rfl
@[simp] theorem idle_lenOut (s : State) : (idle s).lenOut = s.lenOut := rfl
@[simp] theorem idle_ioff (s : State) : (idle s).ioff = s.ioff := rfl
@[simp] theorem idle_ooff (s : State) : (idle s).ooff = s.ooff := rfl
@[simp] theorem idle_inMem (s : State) : (idle s).inMem = s.inMem := rfl
@[simp] theorem idle_outMem (s : State) : (idle s).outMem = s.outMem := rfl
@[simp] theorem idle_alphaTbl (s : State) : (idle s).alphaTbl = s.alphaTbl := rfl
@[simp] theorem idle_rsp (s : State) : (idle s).rsp = none := rfl
@[simp] theorem idle_script (s : State) : (idle s).script = s.script := rfl
@[simp] theorem idle_draws (s : State) : (idle s).draws = s.draws := rfl

@[simp] theorem respond_lenIn (y : Bool) (s : State) : (respond y s).lenIn = s.lenIn := rfl
@[simp] theorem respond_lenOut (y : Bool) (s : State) : (respond y s).lenOut = s.lenOut := rfl
@[simp] theorem respond_ioff (y : Bool) (s : State) : (respond y s).ioff = s.ioff := rfl
@[simp] theorem respond_ooff (y : Bool) (s : State) : (respond y s).ooff = s.ooff := rfl
@[simp] theorem respond_inMem (y : Bool) (s : State) : (respond y s).inMem = s.inMem := rfl
@[simp] theorem respond_outMem (y : Bool) (s : State) : (respond y s).outMem = s.outMem := rfl
@[simp] theorem respond_alphaTbl (y : Bool) (s : State) : (respond y s).alphaTbl = s.alphaTbl := rfl
@[simp] theorem respond_rsp (y : Bool) (s : State) : (respond y s).rsp = some (responseOf y s) := rfl
@[simp] theorem respond_script (y : Bool) (s : State) : (respond y s).script = s.script := rfl
@[simp] theorem respond_draws (y : Bool) (s : State) : (respond y s).draws = s.draws := rfl

@[simp] theorem blockWrite_lenIn (s : State) : (blockWrite s).lenIn = s.lenIn := rfl
@[simp] theorem blockWrite_lenOut (s : State) : (blockWrite s).lenOut = s.lenOut := rfl
@[simp] theorem blockWrite_ioff (s : State) : (blockWrite s).ioff = s.ioff := rfl
@[simp] theorem blockWrite_ooff (s : State) : (blockWrite s).ooff = s.ooff := rfl
@[simp] theorem blockWrite_inMem (s : State) : (blockWrite s).inMem = s.inMem := rfl
@[simp] theorem blockWrite_outMem (s : State) : (blockWrite s).outMem = s.outMem.writeBytes s.ooff (encblk s.alphaTbl (inputWindow s)) := rfl
@[simp] theorem blockWrite_alphaTbl (s : State) : (blockWrite s).alphaTbl = s.alphaTbl := rfl
@[simp] theorem blockWrite_rsp (s : State) : (blockWrite s).rsp = s.rsp := rfl
@[simp] theorem blockWrite_script (s : State) : (blockWrite s).script = s.script := rfl
@[simp] theorem blockWrite_draws (s : State) : (blockWrite s).draws = s.draws := rfl

@[simp] theorem advance_lenIn (s : State) : (advance s).lenIn = s.lenIn := rfl
@[simp] theorem advance_lenOut (s : State) : (advance s).lenOut = s.lenOut := rfl
@[simp] theorem advance_ioff (s : State) : (advance s).ioff = s.ioff + 24 := rfl
@[simp] theorem advance_ooff (s : State) : (advance s).ooff = s.ooff + 32 := rfl
@[simp] theorem advance_inMem (s : State) : (advance s).inMem = s.inMem := rfl
@[simp] theorem advance_outMem (s : State) : (advance s).outMem = s.outMem := rfl
@[simp] theorem advance_alphaTbl (s : State) : (advance s).alphaTbl = s.alphaTbl := rfl
@[simp] theorem advance_rsp (s : State) : (advance s).rsp = s.rsp := rfl
@[simp] theorem advance_script (s : State) : (advance s).script = s.script := rfl
@[simp] theorem advance_draws (s : State) : (advance s).draws = s.draws := rfl

@[simp] theorem blockStep_lenIn (s : State) : (blockStep s).lenIn = s.lenIn := rfl
@[simp] theorem blockStep_lenOut (s : State) : (blockStep s).lenOut = s.lenOut := rfl
@[simp] theorem blockStep_ioff (s : State) : (blockStep s).ioff = s.ioff + 24 := rfl
@[simp] theorem blockStep_ooff (s : State) : (blockStep s).ooff = s.ooff + 32 := rfl
@[simp] theorem blockStep_inMem (s : State) : (blockStep s).inMem = s.inMem := rfl
@[simp] theorem blockStep_outMem (s : State) : (blockStep s).outMem = s.outMem.writeBytes s.ooff (encblk s.alphaTbl (inputWindow s)) := rfl
@[simp] theorem blockStep_alphaTbl (s : State) : (blockStep s).alphaTbl = s.alphaTbl := rfl
@[simp] theorem blockStep_rsp (s : State) : (blockStep s).rsp = s.rsp := rfl
@[simp] theorem blockStep_script (s : State) : (blockStep s).script = s.script := rfl
@[simp] theorem blockStep_draws (s : State) : (blockStep s).draws = s.draws := rfl

@[simp] theorem requeue_lenIn (ps : List Pins) (s : State) : (requeue ps s).lenIn = s.lenIn := rfl
@[simp] theorem requeue_lenOut (ps : List Pins) (s : State) : (requeue ps s).lenOut = s.lenOut := rfl
@[simp] theorem requeue_ioff (ps : List Pins) (s : State) : (requeue ps s).ioff = s.ioff := rfl
@[simp] theorem requeue_ooff (ps : List Pins) (s : State) : (requeue ps s).ooff = s.ooff := rfl
@[simp] theorem requeue_inMem (ps : List Pins) (s : State) : (requeue ps s).inMem = s.inMem := rfl
@[simp] theorem requeue_outMem (ps : List Pins) (s : State) : (requeue ps s).outMem = s.outMem := rfl
@[simp] theorem requeue_alphaTbl (ps : List Pins) (s : State) : (requeue ps s).alphaTbl = s.alphaTbl := rfl
@[simp] theorem requeue_rsp (ps : List Pins) (s : State) : (requeue ps s).rsp = s.rsp := rfl
@[simp] theorem requeue_script (ps : List Pins) (s : State) : (requeue ps s).script = ps.map (fun p => HostMove.edge p []) ++ s.script := rfl
@[simp] theorem requeue_draws (ps : List Pins) (s : State) : (requeue ps s).draws = s.draws := rfl

@[simp] theorem abortCommand_lenIn (s t : State) : (abortCommand s t).lenIn = 0 := rfl
@[simp] theorem abortCommand_lenOut (s t : State) : (abortCommand s t).lenOut = 0 := rfl
@[simp] theorem abortCommand_ioff (s t : State) : (abortCommand s t).ioff = 0 := rfl
@[simp] theorem abortCommand_ooff (s t : State) : (abortCommand s t).ooff = 0 := rfl
@[simp] theorem abortCommand_inMem (s t : State) : (abortCommand s t).inMem = s.inMem := rfl
@[simp] theorem abortCommand_outMem (s t : State) : (abortCommand s t).outMem = drawBytes s.draws s.outMem t.outMem s.ooff (t.ooff - s.ooff) := rfl
@[simp] theorem abortCommand_alphaTbl (s t : State) : (abortCommand s t).alphaTbl = s.alphaTbl := rfl
@[simp] theorem abortCommand_rsp (s t : State) : (abortCommand s t).rsp = none := rfl
@[simp] theorem abortCommand_script (s t : State) : (abortCommand s t).script = s.script := rfl
@[simp] theorem abortCommand_draws (s t : State) : (abortCommand s t).draws = s.draws + 1 := rfl

/-- The flags read the four registers only. -/
theorem exh_congr {s t : State} (h1 : t.lenIn = s.lenIn) (h2 : t.lenOut = s.lenOut) (h3 : t.ioff = s.ioff)
    (h4 : t.ooff = s.ooff) : exh t = exh s := by
  simp only [exh, h1, h2, h3, h4]

@[simp] theorem exh_respond (y : Bool) (s : State) : exh (respond y s) = exh s := rfl

@[simp] theorem avail_respond (y : Bool) (s : State) : avail (respond y s) = avail s := rfl

@[simp] theorem exh_idle (s : State) : exh (idle s) = exh s := rfl

@[simp] theorem exh_requeue (ps : List Pins) (s : State) : exh (requeue ps s) = exh s := rfl

@[simp] theorem exh_resetRegs (s : State) : exh (resetRegs s) = true := rfl

@[simp] theorem exh_abortCommand (s t : State) : exh (abortCommand s t) = true := rfl

@[simp] theorem responseOf_respond (y z : Bool) (s : State) : responseOf y (respond z s) = responseOf y s := rfl

/-- `AVAIL = not EXH` (R81). -/
theorem avail_eq_not_exh (s : State) : avail s = !exh s := by
  simp only [avail, exh, ge_iff_le, Bool.not_or, ← decide_not, Nat.not_lt]

/-- `EXH` as one decision (R24). -/
theorem exh_eq_decide (s : State) : exh s = decide (s.lenIn - s.ioff < 26 ∨ s.lenOut - s.ooff < 32) := by
  rw [Bool.decide_or]; rfl

theorem exh_blockStep (s : State) :
    exh (blockStep s) = decide (s.lenIn - (s.ioff + 24) < 26 ∨ s.lenOut - (s.ooff + 32) < 32) := by
  rw [exh_eq_decide]; rfl

theorem avail_iff (s : State) : avail s = true ↔ s.ioff + 26 ≤ s.lenIn ∧ s.ooff + 32 ≤ s.lenOut := by
  simp only [avail, Bool.and_eq_true, decide_eq_true_eq, Config.ICS, Config.OCS]
  omega

theorem exh_iff (s : State) : exh s = true ↔ s.lenIn < s.ioff + 26 ∨ s.lenOut < s.ooff + 32 := by
  simp only [exh, Bool.or_eq_true, decide_eq_true_eq, Config.ICS, Config.OCS]
  omega

theorem avail_of_exh {s : State} (h : exh s = true) : avail s = false := by simp [avail_eq_not_exh, h]

theorem exh_of_not_avail {s : State} (h : avail s = false) : exh s = true := by
  simpa [avail_eq_not_exh] using h

theorem callOpen_iff (s : State) : callOpen s = true ↔ exh s = false := by simp [callOpen]

end Sys2Proof.Machine
end

