-- ==== Sys2Proof/Laws/Kernel.lean ====
section
/-! SUPPORT. The laws of the datapath: the bits of a word and of a group, the bytes of a block, and which window bytes a block depends on. -/

namespace Sys2Proof.Machine

/-- The bits of a word: byte `k` stands at `[63-8k : 56-8k]` (R69). -/
theorem be64_bit (b0 b1 b2 b3 b4 b5 b6 b7 : Byte) (t : Nat) :
    (be64 b0 b1 b2 b3 b4 b5 b6 b7).getLsbD t =
      if t < 8 then b7.getLsbD t
      else if t < 16 then b6.getLsbD (t - 8)
      else if t < 24 then b5.getLsbD (t - 16)
      else if t < 32 then b4.getLsbD (t - 24)
      else if t < 40 then b3.getLsbD (t - 32)
      else if t < 48 then b2.getLsbD (t - 40)
      else if t < 56 then b1.getLsbD (t - 48)
      else b0.getLsbD (t - 56) := by
  have h : (be64 b0 b1 b2 b3 b4 b5 b6 b7).getLsbD t =
      (b0 ++ b1 ++ b2 ++ b3 ++ b4 ++ b5 ++ b6 ++ b7 : BitVec (8 + 8 + 8 + 8 + 8 + 8 + 8 + 8)).getLsbD t := rfl
  rw [h]
  grind

/-- A group is a slice of the word (R70, R102). -/
theorem extr_bit (w : Word) {j : Nat} (hj : j < 8) {t : Nat} (ht : t < 6) :
    (extr w j).getLsbD t = w.getLsbD (58 - 6 * j + t) := by
  have hmask : ∀ t < 6, (0x3F#64).getLsbD t = true := by decide
  have hs : extrShift j = 58 - 6 * j := by simp only [extrShift, Config.WBITS, Config.GBITS]; omega
  simp only [extr, BitVec.getLsbD_setWidth, ht, decide_true, Bool.true_and, BitVec.getLsbD_and,
    BitVec.getLsbD_ushiftRight, hmask t ht, Bool.and_true, hs]

theorem extr_congr {w w' : Word} {j : Nat} (hj : j < 8)
    (h : ∀ t, 16 ≤ t → t < 64 → w.getLsbD t = w'.getLsbD t) : extr w j = extr w' j := by
  apply BitVec.eq_of_getLsbD_eq
  intro t ht
  rw [extr_bit w hj ht, extr_bit w' hj ht]
  exact h _ (by omega) (by omega)

@[simp] theorem length_encblk (tbl : AlphaTbl) (win : List Byte) : (encblk tbl win).length = 32 := by
  simp [encblk, Config.NSUB, Config.NGRP]

/-- Which byte of the block is which group (R71, R107). -/
theorem getD_encblk (tbl : AlphaTbl) (win : List Byte) {i j : Nat} (hi : i < 4) (hj : j < 8) :
    (encblk tbl win).getD (8 * i + j) 0 = mapByte tbl (extr (loadw win i) j) := by
  interval_cases i <;> interval_cases j <;> rfl

/-- Two lists of 32 bytes agree if they agree at every `8*i + j` (R71). -/
theorem list32_ext {l l' : List Byte} (h : l.length = 32) (h' : l'.length = 32)
    (hij : ∀ i j, i < 4 → j < 8 → l.getD (8 * i + j) 0 = l'.getD (8 * i + j) 0) : l = l' := by
  apply List.ext_getElem (by rw [h, h'])
  intro m hm hm'
  have := hij (m / 8) (m % 8) (by omega) (by omega)
  rwa [show 8 * (m / 8) + m % 8 = m by omega, List.getD_eq_getElem _ _ hm, List.getD_eq_getElem _ _ hm'] at this

/-- The upper 48 bits of word `i` are the window bytes `6i .. 6i+5` (R68). -/
theorem loadw_congr {win win' : List Byte} {i : Nat}
    (h : ∀ k, k < 6 → winByte win (6 * i + k) = winByte win' (6 * i + k)) (t : Nat) (ht : 16 ≤ t) :
    (loadw win i).getLsbD t = (loadw win' i).getLsbD t := by
  have h0 := h 0 (by omega); have h1 := h 1 (by omega); have h2 := h 2 (by omega)
  have h3 := h 3 (by omega); have h4 := h 4 (by omega); have h5 := h 5 (by omega)
  simp only [loadw, Config.SUBIN, be64_bit, h0, h1, h2, h3, h4, h5]
  simp only [show ¬ t < 8 by omega, show ¬ t < 16 by omega, if_false]

/-- A block depends on window bytes 0 to 23 only (R72, R107 a). -/
theorem encblk_congr {tbl : AlphaTbl} {win win' : List Byte}
    (h : ∀ k, k < 24 → winByte win k = winByte win' k) : encblk tbl win = encblk tbl win' := by
  apply list32_ext (length_encblk _ _) (length_encblk _ _)
  intro i j hi hj
  rw [getD_encblk _ _ hi hj, getD_encblk _ _ hi hj]
  congr 1
  exact extr_congr hj fun t ht _ => loadw_congr (fun k hk => h _ (by omega)) t ht

@[simp] theorem length_inputWindow (s : State) : (inputWindow s).length = 26 := by simp [inputWindow]

theorem winByte_inputWindow (s : State) {k : Nat} (h : k < 26) : winByte (inputWindow s) k = s.inMem.read (s.ioff + k) := by
  simp only [winByte, inputWindow]
  exact Memory.getD_readBytes _ _ _ _ h _

/-- Bit `r` from the top of word `i`'s upper 48 bits is window bit `48 i + r` from the top (R72). -/
theorem loadw_bit (win : List Byte) (i : Nat) {r : Nat} (hr : r < 48) :
    (loadw win i).getLsbD (63 - r) = (winByte win (6 * i + r / 8)).getLsbD (7 - r % 8) := by
  simp only [loadw, Config.SUBIN, be64_bit]
  interval_cases r <;> rfl

/-- Bit `t` of group `m` of a block is bit `6m + (5-t)` of the window's bit string (R72). -/
theorem group_bit (win : List Byte) {m : Nat} {t : Nat} (ht : t < 6) :
    (extr (loadw win (m / 8)) (m % 8)).getLsbD t =
      (winByte win ((6 * m + (5 - t)) / 8)).getLsbD (7 - (6 * m + (5 - t)) % 8) := by
  have hj : m % 8 < 8 := by omega
  have hr : 6 * (m % 8) + (5 - t) < 48 := by omega
  rw [extr_bit _ hj ht]
  have h := loadw_bit win (m / 8) hr
  rw [show 58 - 6 * (m % 8) + t = 63 - (6 * (m % 8) + (5 - t)) by omega, h]
  have e1 : 6 * (m / 8) + (6 * (m % 8) + (5 - t)) / 8 = (6 * m + (5 - t)) / 8 := by omega
  have e2 : (6 * (m % 8) + (5 - t)) % 8 = (6 * m + (5 - t)) % 8 := by omega
  rw [e1, e2]

/-- The bits of a group of the continuous view (R124). -/
theorem streamGroup_bit (m : Memory) (k : Nat) {t : Nat} (ht : t < 6) :
    (streamGroup m k).getLsbD t = streamBit m (6 * k + (5 - t)) := by
  have key : ∀ b0 b1 b2 b3 b4 b5 : Bool,
      ∀ t : Fin 6, ((((((((((((0#6 <<< 1) ||| (BitVec.ofBool b0).setWidth 6) <<< 1) ||| (BitVec.ofBool b1).setWidth 6) <<< 1) |||
        (BitVec.ofBool b2).setWidth 6) <<< 1) ||| (BitVec.ofBool b3).setWidth 6) <<< 1) ||| (BitVec.ofBool b4).setWidth 6) <<< 1) |||
        (BitVec.ofBool b5).setWidth 6).getLsbD t = ![b5, b4, b3, b2, b1, b0] t := by decide
  have hk := key (streamBit m (6 * k + 0)) (streamBit m (6 * k + 1)) (streamBit m (6 * k + 2)) (streamBit m (6 * k + 3))
    (streamBit m (6 * k + 4)) (streamBit m (6 * k + 5)) ⟨t, ht⟩
  have hu : streamGroup m k = (((((((((((0#6 <<< 1) ||| (BitVec.ofBool (streamBit m (6 * k + 0))).setWidth 6) <<< 1) |||
      (BitVec.ofBool (streamBit m (6 * k + 1))).setWidth 6) <<< 1) ||| (BitVec.ofBool (streamBit m (6 * k + 2))).setWidth 6) <<< 1) |||
      (BitVec.ofBool (streamBit m (6 * k + 3))).setWidth 6) <<< 1) ||| (BitVec.ofBool (streamBit m (6 * k + 4))).setWidth 6) <<< 1) |||
      (BitVec.ofBool (streamBit m (6 * k + 5))).setWidth 6 := rfl
  rw [hu]
  refine hk.trans ?_
  interval_cases t <;> rfl

end Sys2Proof.Machine
end

