-- ==== Sys2Proof/Laws/Encoder.lean ====
section
/-! SUPPORT. What the commands can do: the loop of RUN in closed form, the state after `k` blocks, and one spec lemma per command. -/

namespace Sys2Proof.Machine

/-! ### Counting blocks -/

theorem blocksLeft_eq (s : State) : blocksLeft s = min ((s.lenIn - s.ioff - 2) / 24) ((s.lenOut - s.ooff) / 32) := rfl

theorem blocksLeft_congr {s t : State} (h1 : t.lenIn = s.lenIn) (h2 : t.lenOut = s.lenOut) (h3 : t.ioff = s.ioff)
    (h4 : t.ooff = s.ooff) : blocksLeft t = blocksLeft s := by
  simp only [blocksLeft, h1, h2, h3, h4]

theorem blocksLeft_blockStep {s : State} (h : avail s = true) : blocksLeft s = blocksLeft (blockStep s) + 1 := by
  rw [avail_iff] at h
  simp only [blocksLeft_eq, blockStep_lenIn, blockStep_lenOut, blockStep_ioff, blockStep_ooff]
  omega

theorem blocksLeft_eq_zero {s : State} (h : avail s = false) : blocksLeft s = 0 := by
  have h' : ¬ (s.ioff + 26 ≤ s.lenIn ∧ s.ooff + 32 ≤ s.lenOut) := by rw [← avail_iff, h]; simp
  simp only [blocksLeft_eq]
  omega

theorem blocksLeft_pos {s : State} : 0 < blocksLeft s ↔ avail s = true := by
  cases h : avail s with
  | true => rw [blocksLeft_blockStep h]; simp
  | false => rw [blocksLeft_eq_zero h]; simp

theorem blocksLeft_le (s : State) : blocksLeft s ≤ s.lenIn - s.ioff := by
  rw [blocksLeft_eq]; omega

/-! ### The state after `k` blocks -/

@[simp] theorem blockSteps_lenIn (k : Nat) (s : State) : (blockSteps k s).lenIn = s.lenIn := by
  induction k generalizing s with
  | zero => rfl
  | succ k ih => simp [blockSteps, ih]

@[simp] theorem blockSteps_lenOut (k : Nat) (s : State) : (blockSteps k s).lenOut = s.lenOut := by
  induction k generalizing s with
  | zero => rfl
  | succ k ih => simp [blockSteps, ih]

@[simp] theorem blockSteps_ioff (k : Nat) (s : State) : (blockSteps k s).ioff = s.ioff + 24 * k := by
  induction k generalizing s with
  | zero => rfl
  | succ k ih => simp only [blockSteps, ih, blockStep_ioff]; omega

@[simp] theorem blockSteps_ooff (k : Nat) (s : State) : (blockSteps k s).ooff = s.ooff + 32 * k := by
  induction k generalizing s with
  | zero => rfl
  | succ k ih => simp only [blockSteps, ih, blockStep_ooff]; omega

@[simp] theorem blockSteps_inMem (k : Nat) (s : State) : (blockSteps k s).inMem = s.inMem := by
  induction k generalizing s with
  | zero => rfl
  | succ k ih => simp [blockSteps, ih]

@[simp] theorem blockSteps_alphaTbl (k : Nat) (s : State) : (blockSteps k s).alphaTbl = s.alphaTbl := by
  induction k generalizing s with
  | zero => rfl
  | succ k ih => simp [blockSteps, ih]

@[simp] theorem blockSteps_rsp (k : Nat) (s : State) : (blockSteps k s).rsp = s.rsp := by
  induction k generalizing s with
  | zero => rfl
  | succ k ih => simp [blockSteps, ih]

@[simp] theorem blockSteps_script (k : Nat) (s : State) : (blockSteps k s).script = s.script := by
  induction k generalizing s with
  | zero => rfl
  | succ k ih => simp [blockSteps, ih]

@[simp] theorem blockSteps_draws (k : Nat) (s : State) : (blockSteps k s).draws = s.draws := by
  induction k generalizing s with
  | zero => rfl
  | succ k ih => simp [blockSteps, ih]

theorem blockSteps_wf (k : Nat) {s : State} (h : s.outMem.wf = true) : (blockSteps k s).outMem.wf = true := by
  induction k generalizing s with
  | zero => exact h
  | succ k ih => exact ih (Memory.wf_writeBytes h _ _)

/-- The bytes of `OUT` after one block (R121). -/
theorem read_blockStep (s : State) (x : Nat) :
    (blockStep s).outMem.read x =
      if s.ooff ≤ x ∧ x < s.ooff + 32 then (encblk s.alphaTbl (inputWindow s)).getD (x - s.ooff) 0 else s.outMem.read x := by
  rw [blockStep_outMem, Memory.read_writeBytes, length_encblk]

/-- The bytes of `OUT` after `k` blocks: each window holds its block, every other byte is as it was. -/
theorem read_blockSteps (k : Nat) (s : State) (x : Nat) :
    (blockSteps k s).outMem.read x =
      if s.ooff ≤ x ∧ x < s.ooff + 32 * k then
        (encblk s.alphaTbl (s.inMem.readBytes (s.ioff + 24 * ((x - s.ooff) / 32)) 26)).getD ((x - s.ooff) % 32) 0
      else s.outMem.read x := by
  induction k generalizing s with
  | zero => rw [if_neg (by omega)]; rfl
  | succ k ih =>
    simp only [blockSteps, ih, blockStep_ooff, blockStep_ioff, blockStep_alphaTbl, blockStep_inMem, read_blockStep]
    by_cases h1 : s.ooff + 32 ≤ x ∧ x < s.ooff + 32 + 32 * k
    · rw [if_pos h1, if_pos (by omega)]
      have e1 : s.ioff + 24 + 24 * ((x - (s.ooff + 32)) / 32) = s.ioff + 24 * ((x - s.ooff) / 32) := by omega
      have e2 : (x - (s.ooff + 32)) % 32 = (x - s.ooff) % 32 := by omega
      rw [e1, e2]
    · rw [if_neg h1]
      by_cases h2 : s.ooff ≤ x ∧ x < s.ooff + 32
      · have e1 : s.ioff + 24 * ((x - s.ooff) / 32) = s.ioff := by omega
        have e2 : (x - s.ooff) % 32 = x - s.ooff := by omega
        rw [if_pos h2, if_pos (by omega), e1, e2]
        rfl
      · rw [if_neg h2, if_neg (by omega)]

/-- Blocks add up. -/
theorem blockSteps_add (j k : Nat) (s : State) : blockSteps (j + k) s = blockSteps k (blockSteps j s) := by
  induction j generalizing s with
  | zero => simp [blockSteps]
  | succ j ih => rw [Nat.succ_add]; exact ih (blockStep s)

/-! ### The commands -/

/-- The loop of RUN stops by exhaustion, not by its bound (R125). -/
theorem runLoop_eq (n : Nat) (s : State) (h : blocksLeft s ≤ n) : runLoop n s = blockSteps (blocksLeft s) s := by
  induction n generalizing s with
  | zero => rw [Nat.le_zero.1 h]; rfl
  | succ n ih =>
    simp only [runLoop]
    cases ha : avail s with
    | true =>
      have hb := blocksLeft_blockStep ha
      rw [if_pos rfl, ih _ (by omega), hb]
      rfl
    | false => rw [if_neg (by simp), blocksLeft_eq_zero ha]; rfl

theorem exec_init (a b : Nat) (s : State) :
    exec (.init a b) s = .next (respond false { s with lenIn := a, lenOut := b, ioff := 0, ooff := 0 }) := rfl

theorem exec_rem (s : State) : exec .rem s = .next (respond false s) := rfl

theorem exec_step (s : State) :
    exec .step s = .next (if avail s then respond true (blockStep s) else respond false s) := by
  simp only [exec, execStep]; split <;> rfl

/-- RUN is as many blocks as are left, then the response (R124). -/
theorem exec_run (s : State) : exec .run s = .next (respond false (blockSteps (blocksLeft s) s)) := by
  simp only [exec, execRun, runLoop_eq _ s (blocksLeft_le s)]

/-- After the blocks that are left, the iterator is exhausted (R90). -/
theorem exh_blockSteps (s : State) : exh (blockSteps (blocksLeft s) s) = true := by
  rw [exh_iff]
  simp only [blockSteps_lenIn, blockSteps_lenOut, blockSteps_ioff, blockSteps_ooff, blocksLeft_eq]
  omega

/-- What a command can do, said once: it completes, and either it is an INIT or it encodes some number of the blocks that are
left; then it delivers its response. -/
theorem exec_cases (i : Instr) (s : State) :
    (∃ a b, i = .init a b ∧
      exec i s = .next (respond false { s with lenIn := a, lenOut := b, ioff := 0, ooff := 0 })) ∨
    (∃ k y, k ≤ blocksLeft s ∧ (∀ a b, i ≠ .init a b) ∧ exec i s = .next (respond y (blockSteps k s))) := by
  cases i with
  | init a b => exact .inl ⟨a, b, rfl, rfl⟩
  | step =>
    right
    rw [exec_step]
    cases h : avail s with
    | true => exact ⟨1, true, blocksLeft_pos.2 h, by simp, rfl⟩
    | false => exact ⟨0, false, Nat.zero_le _, by simp, rfl⟩
  | run => exact .inr ⟨blocksLeft s, false, le_refl _, by simp, exec_run s⟩
  | rem => exact .inr ⟨0, false, Nat.zero_le _, by simp, rfl⟩

/-- What no command touches (R26, R28, R40). -/
theorem exec_frame {i : Instr} {s t : State} (h : exec i s = .next t) :
    t.inMem = s.inMem ∧ t.alphaTbl = s.alphaTbl ∧ t.script = s.script ∧ t.draws = s.draws := by
  rcases exec_cases i s with ⟨a, b, -, he⟩ | ⟨k, y, -, -, he⟩ <;>
    · rw [he] at h; cases h; simp

/-- Every command completes. -/
theorem exec_completes (i : Instr) (s : State) : ∃ t, exec i s = .next t := by
  rcases exec_cases i s with ⟨a, b, -, he⟩ | ⟨k, y, -, -, he⟩ <;> exact ⟨_, he⟩

end Sys2Proof.Machine
end

