-- ==== Sys2Proof/Laws/PerInstr.lean ====
section
/-! SUPPORT. The per-instruction family `Encoding`: whatever stands on the operand ports, the code of a command selects that command. -/

namespace Sys2Proof.Laws.Encoding

/-- The decoder reads a command of the same code from the code of `i` and any operands (R61, R62). -/
def Statement (i : Instr) : Prop :=
  ∀ p q : BitVec Config.AW, (decode ⟨(encode i).op, p, q⟩).opCode = i.opCode

theorem init (a b : Nat) : Statement (.init a b) := fun p q => by
  rw [show (encode (.init a b)).op = 0b00#2 from rfl, decode_init]; rfl

theorem step : Statement .step := fun p q => by
  rw [show (encode .step).op = 0b01#2 from rfl, decode_step]

theorem run : Statement .run := fun p q => by
  rw [show (encode .run).op = 0b10#2 from rfl, decode_run]

theorem rem : Statement .rem := fun p q => by
  rw [show (encode .rem).op = 0b11#2 from rfl, decode_rem]

end Sys2Proof.Laws.Encoding
end

