-- ==== Sys2Proof/Laws/Step.lean ====
section
/-! SUPPORT. What a step can do, said once (`step_cases`), and what follows from it. -/

namespace Sys2Proof.Machine

/-- The state with the host's next move taken off the list. -/
abbrev State.after (s : State) (rest : List HostMove) : State := { s with script := rest }

/-- `later` are the edges of `busy` after the first one with `rst = 1`. -/
def FirstReset (busy later : List Pins) : Prop :=
  ∃ before q, busy = before ++ q :: later ∧ (∀ p ∈ before, p.rst = false) ∧ q.rst = true

theorem FirstReset.exists_rst {busy later : List Pins} (h : FirstReset busy later) : ∃ q ∈ busy, q.rst = true := by
  obtain ⟨before, q, rfl, -, hq⟩ := h
  exact ⟨q, by simp, hq⟩

/-- What one step can do, when it leads to a next state. -/
inductive StepCase (s t : State) : Prop where
  /-- The host does nothing. -/
  | quiet (h : s.script = []) (ht : t = idle s)
  /-- A command is accepted and completes. -/
  | command (c : CmdPort) (rest : List HostMove) (h : Accepts s c rest) (ht : exec (decode c) (s.after rest) = .next t)
  /-- A command is accepted and aborted by a reset (R161). -/
  | aborted (c : CmdPort) (busy later : List Pins) (rest : List HostMove) (u : State)
      (h : s.script = .edge ⟨false, true, c⟩ busy :: rest) (hr : FirstReset busy later)
      (hu : exec (decode c) (s.after rest) = .next u) (ht : t = requeue later (abortCommand (s.after rest) u))
  /-- A reset with no command in progress (R160). -/
  | reset (p : Pins) (busy : List Pins) (rest : List HostMove) (h : s.script = .edge p busy :: rest) (hp : p.rst = true)
      (ht : t = requeue busy (resetRegs (s.after rest)))
  /-- An edge with nothing presented. -/
  | nothing (p : Pins) (busy : List Pins) (rest : List HostMove) (h : s.script = .edge p busy :: rest) (hp : p.rst = false)
      (hv : p.valid = false) (ht : t = requeue busy (idle (s.after rest)))
  /-- The host drives the alphabet table. -/
  | driveAlpha (tbl : AlphaTbl) (rest : List HostMove) (h : s.script = .driveAlpha tbl :: rest)
      (ho : callOpen s = true → tbl = s.alphaTbl) (ht : t = { idle (s.after rest) with alphaTbl := tbl })
  /-- The host writes `IN`. -/
  | writeIn (off : Nat) (bytes : List Byte) (rest : List HostMove) (h : s.script = .writeIn off bytes :: rest)
      (ho : callOpen s = false) (ht : t = { idle (s.after rest) with inMem := s.inMem.writeBytes off bytes })
  /-- The host writes `OUT`. -/
  | writeOut (off : Nat) (bytes : List Byte) (rest : List HostMove) (h : s.script = .writeOut off bytes :: rest)
      (ho : callOpen s = false) (ht : t = { idle (s.after rest) with outMem := s.outMem.writeBytes off bytes })

/-- The edges before the first reset, when there is none. -/
theorem dropWhile_nil_iff (busy : List Pins) :
    busy.dropWhile (fun p => !p.rst) = [] ↔ ∀ p ∈ busy, p.rst = false := by
  simp [List.dropWhile_eq_nil_iff]

/-- The edges from the first reset on, when there is one. -/
theorem firstReset_of_dropWhile {busy later : List Pins} {q : Pins}
    (h : busy.dropWhile (fun p => !p.rst) = q :: later) : FirstReset busy later := by
  induction busy with
  | nil => cases h
  | cons p busy ih =>
    cases hp : p.rst with
    | true =>
      simp only [List.dropWhile_cons, hp, Bool.not_true, Bool.false_eq_true, if_false, List.cons.injEq] at h
      obtain ⟨rfl, rfl⟩ := h
      exact ⟨[], p, rfl, by simp, hp⟩
    | false =>
      simp only [List.dropWhile_cons, hp, Bool.not_false, if_true] at h
      obtain ⟨before, q', rfl, hb, hq⟩ := ih h
      exact ⟨p :: before, q', rfl, by simpa [hp] using hb, hq⟩

/-- An accepted command that no reset aborts runs its meaning. -/
theorem acceptCommand_completes {c : CmdPort} {busy : List Pins} (s : State) (h : ∀ p ∈ busy, p.rst = false) :
    acceptCommand c busy s = exec (decode c) s := by
  simp only [acceptCommand, (dropWhile_nil_iff busy).2 h]

theorem step_of_accepts {s : State} {c : CmdPort} {rest : List HostMove} (h : Accepts s c rest) :
    step s = exec (decode c) (s.after rest) := by
  obtain ⟨busy, hs, hb⟩ := h
  simp only [step, nextEvent, hs, hostMove, clockEdge, Bool.false_eq_true, if_false, if_true]
  exact acceptCommand_completes _ hb

/-- Inversion of a step: everything it can do. -/
theorem step_cases {s t : State} (h : step s = .next t) : StepCase s t := by
  simp only [step, nextEvent] at h
  split at h
  · next hs => cases h; exact .quiet hs rfl
  · next m rest hs =>
    cases m with
    | edge p busy =>
      obtain ⟨rst, valid, c⟩ := p
      simp only [hostMove, clockEdge] at h
      cases rst with
      | true => cases h; exact .reset _ _ _ hs rfl rfl
      | false =>
        cases valid with
        | false => cases h; exact .nothing _ _ _ hs rfl rfl rfl
        | true =>
          simp only [Bool.false_eq_true, if_false, if_true, acceptCommand] at h
          split at h
          · next hd => exact .command c rest ⟨busy, hs, (dropWhile_nil_iff busy).1 hd⟩ h
          · next q later hd =>
            obtain ⟨u, hu⟩ := exec_completes (decode c) (s.after rest)
            rw [hu] at h
            cases h
            exact .aborted c busy later rest u hs (firstReset_of_dropWhile hd) hu rfl
    | driveAlpha tbl =>
      simp only [hostMove, hostDriveAlpha] at h
      split at h
      · cases h
      · next hc =>
        cases h
        refine .driveAlpha tbl rest hs (fun ho => ?_) rfl
        by_contra hne
        exact hc (by simpa using ⟨ho, hne⟩)
    | writeIn off bytes =>
      simp only [hostMove, hostWriteIn] at h
      split at h
      · cases h
      · next hc => cases h; exact .writeIn off bytes rest hs (Bool.eq_false_iff.2 hc) rfl
    | writeOut off bytes =>
      simp only [hostMove, hostWriteOut] at h
      split at h
      · cases h
      · next hc => cases h; exact .writeOut off bytes rest hs (Bool.eq_false_iff.2 hc) rfl

/-- A step never faults: the type of faults is empty (R140). -/
theorem step_no_fault (s : State) (f : Fault) : step s ≠ .fault f := nomatch f

end Sys2Proof.Machine
end

