-- ==== Sys2Proof/Tests/Slice0.lean ====
section
/-! SUPPORT. Tests: expected results from spec/95_test_vectors.md (each names its vector) or by hand from a rule; and, for each statement
with hypotheses, a witness that meets them. -/

namespace Sys2Proof.Tests

open Sys2Proof.Machine

/-! ### Helpers -/

/-- `ALPHA_ID` (spec/95_test_vectors.md). -/
def alphaId : AlphaTbl := alphaOfBytes ((List.range 64).map (BitVec.ofNat 8))

/-- `ALPHA_REV`. -/
def alphaRev : AlphaTbl := alphaOfBytes ((List.range 64).map fun v => BitVec.ofNat 8 (255 - v))

/-- A state with these registers, `IN[k] = k` for `k < 50`, `ALPHA_ID`, and this script. -/
def demo (a b i o : Nat) (script : List HostMove := []) : State :=
  { State.reset with
    lenIn := a, lenOut := b, ioff := i, ooff := o
    inMem := Memory.writeBytes [] 0 ((List.range 50).map (BitVec.ofNat 8))
    alphaTbl := alphaId, script := script }

/-- A window from its bytes as numbers. -/
def bytes (l : List Nat) : List Byte := l.map (BitVec.ofNat 8)

/-- The next state's registers and response, where there is a next state. -/
def outcomeOf (o : Host.Outcome State Fault Refusal) : Option (Nat × Nat × Nat × Nat × Option Response) :=
  match o with
  | .next t => some (t.lenIn, t.lenOut, t.ioff, t.ooff, t.rsp)
  | .fault _ => none
  | .refused _ => none

/-- `n` bytes of the next state's `OUT` from an offset up. -/
def outBytes (o : Host.Outcome State Fault Refusal) (a n : Nat) : List Byte :=
  match o with
  | .next t => t.outMem.readBytes a n
  | .fault _ => []
  | .refused _ => []

/-- An edge that presents a command, with edges that pass while it is in progress. -/
def present (i : Instr) (busy : List Pins) : HostMove := .edge ⟨false, true, encode i⟩ busy

/-- An edge with `rst = 1` and a command presented. -/
def rstPins : Pins := ⟨true, true, encode .run⟩

/-- An edge that presents RUN, without reset. -/
def runPins : Pins := ⟨false, true, encode .run⟩

/-! ### WellFormed (R62): each check refuses an ill-formed term -/

theorem test_wf_refuses_len_in_over_the_port : (Instr.init (2 ^ Config.AW) 0).WellFormed = false := by
  simp [Instr.WellFormed]

theorem test_wf_refuses_len_out_over_the_port : (Instr.init 0 (2 ^ Config.AW)).WellFormed = false := by
  simp [Instr.WellFormed]

theorem test_wf_accepts_the_largest : (Instr.init (2 ^ Config.AW - 1) (2 ^ Config.AW - 1)).WellFormed = true := by
  have h := Nat.two_pow_pos Config.AW
  rw [wellFormed_init]
  exact ⟨by simp only [FitsPort]; omega, by simp only [FitsPort]; omega⟩

/-! ### Decoding, from the table of R61 -/

theorem test_decode_00_is_init : decode ⟨0b00#2, BitVec.ofNat _ 50, BitVec.ofNat _ 63⟩ = .init 50 63 := by
  rw [decode_init, BitVec.toNat_ofNat, BitVec.toNat_ofNat, Nat.mod_eq_of_lt (fitsPort_of_lt_64 (by decide)),
    Nat.mod_eq_of_lt (fitsPort_of_lt_64 (by decide))]

theorem test_decode_01_is_step : decode ⟨0b01#2, BitVec.ofNat _ 50, BitVec.ofNat _ 63⟩ = .step := decode_step _ _

theorem test_decode_10_is_run : decode ⟨0b10#2, BitVec.ofNat _ 50, BitVec.ofNat _ 63⟩ = .run := decode_run _ _

theorem test_decode_11_is_rem : decode ⟨0b11#2, BitVec.ofNat _ 50, BitVec.ofNat _ 63⟩ = .rem := decode_rem _ _

theorem test_table_words_run_first :
    step (State.reset.withFetchWord 8 0) = exec (.init 0 0) State.reset ∧
    step (State.reset.withFetchWord 8 1) = exec .step State.reset ∧
    step (State.reset.withFetchWord 8 2) = exec .run State.reset ∧
    step (State.reset.withFetchWord 8 3) = exec .rem State.reset := ⟨rfl, rfl, rfl, rfl⟩

/-! ### The datapath -/

/-- V3. -/
theorem test_be64_v3 : be64 1 2 3 4 5 6 7 8 = 0x0102030405060708#64 := by decide

/-- V8 to V11. -/
theorem test_loadw_v8_to_v11 :
    (List.range 4).map (loadw (bytes (List.range 26))) =
      [0x0001020304050607#64, 0x060708090A0B0C0D#64, 0x0C0D0E0F10111213#64, 0x1213141516171819#64] := by decide

/-- V17, V18, V20a, V22. -/
theorem test_extr_v17_v18_v20a_v22 :
    (List.range 8).map (extr 0x0000000000010000#64) = [0, 0, 0, 0, 0, 0, 0, 1] ∧
    (List.range 8).map (extr 0x0000000000008000#64) = [0, 0, 0, 0, 0, 0, 0, 0] ∧
    (List.range 8).map (extr 0x0010831051872000#64) = [0, 1, 2, 3, 4, 5, 6, 7] ∧
    (List.range 8).map (extr 0xFEDCBA9876543210#64) = [63, 45, 50, 58, 38, 7, 25, 20] := by decide

/-- V24, V25. -/
theorem test_map_v24_v25 :
    [0#6, 1#6, 63#6].map (mapByte alphaId) = [0x00#8, 0x01#8, 0x3F#8] ∧
    [0#6, 1#6, 63#6].map (mapByte alphaRev) = [0xFF#8, 0xFE#8, 0xC0#8] := by decide +kernel

/-- V26. -/
theorem test_map_v26 :
    [0#6, 25#6, 26#6, 51#6, 52#6, 61#6, 62#6, 63#6].map (mapByte alphaStd) =
      [0x41#8, 0x5A#8, 0x61#8, 0x7A#8, 0x30#8, 0x39#8, 0x2B#8, 0x2F#8] := by decide +kernel

/-- The window of V20, `Many hands make light work`. -/
def v20Window : List Byte :=
  bytes [0x4D, 0x61, 0x6E, 0x79, 0x20, 0x68, 0x61, 0x6E, 0x64, 0x73, 0x20, 0x6D, 0x61, 0x6B, 0x65, 0x20, 0x6C, 0x69, 0x67, 0x68, 0x74,
    0x20, 0x77, 0x6F, 0x72, 0x6B]

/-- V20, `ALPHA_STD`: `TWFueSBoYW5kcyBtYWtlIGxpZ2h0IHdv`. -/
theorem test_encblk_v20 :
    encblk alphaStd v20Window =
      bytes [0x54, 0x57, 0x46, 0x75, 0x65, 0x53, 0x42, 0x6F, 0x59, 0x57, 0x35, 0x6B, 0x63, 0x79, 0x42, 0x74,
        0x59, 0x57, 0x74, 0x6C, 0x49, 0x47, 0x78, 0x70, 0x5A, 0x32, 0x68, 0x30, 0x49, 0x48, 0x64, 0x76] := by decide +kernel

/-- V33: the last consumed bit is the low bit of output 31; window bytes 24 and 25 are ignored. -/
theorem test_encblk_v33 :
    encblk alphaId (List.replicate 23 0#8 ++ bytes [0x01, 0xAA, 0x55]) = List.replicate 31 0#8 ++ [0x01#8] := by decide +kernel

/-- V36: output `m` is `32 + m`. -/
theorem test_encblk_v36 :
    encblk alphaId (bytes [0x82, 0x18, 0xA3, 0x92, 0x59, 0xA7, 0xA2, 0x9A, 0xAB, 0xB2, 0xDB, 0xAF, 0xC3, 0x1C, 0xB3, 0xD3, 0x5D, 0xB7,
      0xE3, 0x9E, 0xBB, 0xF3, 0xDF, 0xBF, 0x12, 0x34]) = (List.range 32).map (fun m => BitVec.ofNat 8 (32 + m)) := by decide +kernel

/-! ### The commands, on the states of B6 -/

/-- V68: INIT in the middle of a call. -/
theorem test_init_v68 :
    outcomeOf (exec (.init 10 100) (demo 50 64 24 32)) = some (10, 100, 0, 0, some ⟨false, true, 0, 10, 0, 100⟩) := by decide +kernel

/-- V58: the STEP that encodes the last block. -/
theorem test_step_v58 :
    outcomeOf (exec .step (demo 50 64 24 32)) = some (50, 64, 48, 64, some ⟨true, true, 48, 2, 64, 0⟩) := by decide +kernel

/-- P2 command 3: the bytes of the second block; the byte before its window is untouched. -/
theorem test_step_p2_output :
    outBytes (exec .step (demo 50 64 24 32)) 31 33 =
      0#8 :: bytes [0x06, 0x01, 0x24, 0x1A, 0x06, 0x31, 0x30, 0x1D, 0x07, 0x21, 0x3C, 0x20, 0x08, 0x12, 0x08, 0x23,
        0x09, 0x02, 0x14, 0x26, 0x09, 0x32, 0x20, 0x29, 0x0A, 0x22, 0x2C, 0x2C, 0x0B, 0x12, 0x38, 0x2F] := by decide +kernel

/-- V63: RUN continues, it does not restart. -/
theorem test_run_v63 :
    outcomeOf (exec .run (demo 98 128 24 32)) = some (98, 128, 96, 128, some ⟨false, true, 96, 2, 128, 0⟩) := by decide +kernel

/-- V52 (P3): the output limits; nothing is written beyond the first window. -/
theorem test_run_v52 :
    outcomeOf (exec .run (demo 74 40 0 0)) = some (74, 40, 24, 32, some ⟨false, true, 24, 50, 32, 8⟩) ∧
    outBytes (exec .run (demo 74 40 0 0)) 32 8 = List.replicate 8 0#8 := by decide +kernel

/-- V62: REM before exhaustion. -/
theorem test_rem_v62 :
    outcomeOf (exec .rem (demo 50 64 0 0)) = some (50, 64, 0, 0, some ⟨false, false, 0, 50, 0, 64⟩) := by decide +kernel

/-- V60: REM after exhaustion. -/
theorem test_rem_v60 :
    outcomeOf (exec .rem (demo 50 64 48 64)) = some (50, 64, 48, 64, some ⟨false, true, 48, 2, 64, 0⟩) := by decide +kernel

/-- V30, V42, V47, V50, V54, V56: the number of blocks. -/
theorem test_block_counts :
    blockCount 24 32 = 0 ∧ blockCount 26 32 = 1 ∧ blockCount 50 63 = 1 ∧ blockCount 74 96 = 3 ∧ blockCount 1000 2000 = 41 ∧
    blockCount (2 ^ 32 - 1) (2 ^ 32 - 1) = 134217727 := by decide

/-! ### Reset, the host, the ports -/

/-- R145: reset wins over a command presented on the same edge. -/
theorem test_reset_wins :
    outcomeOf (step (demo 50 64 24 32 [.edge rstPins []])) = some (0, 0, 0, 0, none) := by decide +kernel

/-- R65: a command presented while another is in progress has no effect. -/
theorem test_busy_command_ignored :
    outcomeOf (step (demo 50 64 0 0 [present .step [runPins]])) = some (50, 64, 24, 32, some ⟨true, false, 24, 26, 32, 32⟩) := by
  decide +kernel

/-- R161: a reset while a STEP is in progress: no response, reset registers. -/
theorem test_abort_resets :
    outcomeOf (step (demo 50 64 0 0 [present .step [rstPins]])) = some (0, 0, 0, 0, none) := by decide +kernel

/-- U5: the host may not write `OUT` while a call is open, and may once it is closed. -/
theorem test_host_write_out :
    step (demo 50 64 0 0 [.writeOut 0 [0xEE#8]]) = .refused .hostWroteOut ∧
    outBytes (step (demo 50 64 48 64 [.writeOut 64 [0xEE#8]])) 64 1 = [0xEE#8] := ⟨rfl, by decide +kernel⟩

/-! ### Witnesses: hypotheses of the statements, at the edges of their ranges -/

/-- A STEP that yields, a STEP that does not for want of input (V66), and one that does not for want of output (V67). -/
theorem witness_step_branches :
    ((demo 50 64 24 32).lenIn - (demo 50 64 24 32).ioff ≥ 26 ∧ (demo 50 64 24 32).lenOut - (demo 50 64 24 32).ooff ≥ 32) ∧
    ¬ ((demo 49 64 24 32).lenIn - (demo 49 64 24 32).ioff ≥ 26 ∧ (demo 49 64 24 32).lenOut - (demo 49 64 24 32).ooff ≥ 32) ∧
    ¬ ((demo 50 63 24 32).lenIn - (demo 50 63 24 32).ioff ≥ 26 ∧ (demo 50 63 24 32).lenOut - (demo 50 63 24 32).ooff ≥ 32) := by
  decide

/-- `avail` at its boundary. -/
theorem witness_avail_boundary :
    avail (demo 50 64 24 32) = true ∧ avail (demo 49 64 24 32) = false ∧ avail (demo 50 63 24 32) = false ∧
    exh (demo 49 64 24 32) = true ∧ callOpen (demo 50 64 24 32) = true ∧ callOpen (demo 50 63 24 32) = false := by decide

/-- Each command answers a next state on a state with a block to do (the hypothesis `exec i s = .next t`). -/
theorem witness_exec_next (i : Instr) : ∃ t, exec i (demo 50 64 24 32) = .next t := exec_completes i _

/-- A state of the cursor invariant in the middle of a call (`n = 1`), and one at its end. -/
theorem witness_cursorInv : CursorInv (demo 50 64 24 32) ∧ CursorInv (demo 50 64 48 64) ∧ CursorInv (demo 0 0 0 0) :=
  ⟨⟨1, by decide⟩, ⟨2, by decide⟩, ⟨0, by decide⟩⟩

/-- The widths, for every `AW`. -/
theorem witness_regsFit : RegsFit (demo 50 63 24 32) :=
  ⟨fitsPort_of_lt_64 (by decide), fitsPort_of_lt_64 (by decide), fitsPort_of_lt_64 (by decide), fitsPort_of_lt_64 (by decide)⟩

/-- Invariant, an accepted STEP, the next state it leads to and its response: the hypotheses of `ResponsesFitThePorts` and `CursorInvariant`. -/
theorem witness_invariant_step :
    CursorInv (demo 26 32 0 0 [present .step []]) ∧ RegsFit (demo 26 32 0 0 [present .step []]) ∧
    ∃ t r, step (demo 26 32 0 0 [present .step []]) = .next t ∧ t.rsp = some r :=
  ⟨⟨0, by decide⟩,
    ⟨fitsPort_of_lt_64 (by decide), fitsPort_of_lt_64 (by decide), fitsPort_of_lt_64 (by decide), fitsPort_of_lt_64 (by decide)⟩,
    _, _, rfl, rfl⟩

/-- Canonical memories and a step from them. -/
theorem witness_memories : MemoriesCanonical (demo 26 32 0 0 [present .step []]) ∧
    ∃ t, step (demo 26 32 0 0 [present .step []]) = .next t :=
  ⟨⟨by decide +kernel, by decide +kernel⟩, _, rfl⟩

/-- Two canonical memories, built in a different order, that read alike. -/
theorem witness_canonical_pair :
    Memory.wf [(1, 5#8), (2, 6#8)] = true ∧
    Memory.writeBytes [] 1 [5#8, 6#8] = [(1, 5#8), (2, 6#8)] ∧
    Memory.write (Memory.write [] 2 6#8) 1 5#8 = [(1, 5#8), (2, 6#8)] := by decide

/-- A well-formed INIT and its next state. -/
theorem witness_wellFormed_init :
    (Instr.init 63 0).WellFormed = true ∧ ∃ t, exec (.init 63 0) State.reset = .next t :=
  ⟨(wellFormed_init _ _).2 ⟨fitsPort_of_lt_64 (by decide), fitsPort_zero⟩, _, rfl⟩

/-- Two port contents of the same command with different operands, and two of INIT that agree. -/
theorem witness_ports (p q : BitVec Config.AW) :
    decode ⟨0b01#2, p, q⟩ = decode ⟨0b01#2, q, p⟩ ∧ decode ⟨0b00#2, p, q⟩ = decode ⟨0b00#2, p, q⟩ :=
  ⟨(decode_step _ _).trans (decode_step _ _).symm, rfl⟩

/-- An accepted command, with a command presented while it is in progress. -/
theorem witness_accepts : Accepts (demo 50 64 0 0 [present .step [runPins]]) (encode .step) [] :=
  ⟨[runPins], rfl, by decide⟩

/-- The hypotheses of `AcceptedCommandRuns`, with a non-empty list of busy edges. -/
theorem witness_accepted_command :
    (demo 50 64 0 0 [present .step [runPins]]).script = .edge ⟨false, true, encode .step⟩ [runPins] :: [] ∧
    ∀ p ∈ [runPins], p.rst = false := ⟨rfl, by decide⟩

/-- A next move that neither accepts an INIT nor resets: the hypotheses of the rules about lengths and cursors; and the step is a next state. -/
theorem witness_no_init_no_reset :
    ¬ AcceptsInit (demo 50 64 0 0 [present .step []]) ∧ ¬ Resets (demo 50 64 0 0 [present .step []]) ∧
    ∃ t, step (demo 50 64 0 0 [present .step []]) = .next t := by
  refine ⟨?_, ?_, _, rfl⟩
  · rintro ⟨c, rest, a, b, ⟨busy, hs, -⟩, hd⟩
    cases hs
    rw [show encode .step = ⟨0b01#2, 0#_, 0#_⟩ from rfl, decode_step] at hd
    cases hd
  · rintro ⟨p, busy, rest, hs, h⟩
    cases hs
    rcases h with h | ⟨-, q, hq, -⟩
    · cases h
    · cases hq

/-- An exhausted state whose next move accepts no INIT and leads to a next state (`ExhaustedUntilNextInit`, `CallOpensOnlyAtInit`). -/
theorem witness_exhausted_step :
    exh (demo 50 64 48 64) = true ∧ callOpen (demo 50 64 48 64) = false ∧ ¬ AcceptsInit (demo 50 64 48 64) ∧
    ∃ t, step (demo 50 64 48 64) = .next t := by
  refine ⟨rfl, rfl, ?_, _, rfl⟩
  rintro ⟨c, rest, a, b, ⟨busy, hs, -⟩, -⟩
  cases hs

/-- A reset as the next move: on the edge itself, and while a command is in progress; both lead to a next state. -/
theorem witness_resets :
    Resets (demo 50 64 0 0 [.edge rstPins []]) ∧ Resets (demo 50 64 0 0 [present .step [runPins, rstPins]]) ∧
    (∃ t, step (demo 50 64 0 0 [.edge rstPins []]) = .next t) ∧
    ∃ t, step (demo 50 64 0 0 [present .step [runPins, rstPins]]) = .next t :=
  ⟨⟨_, _, _, rfl, .inl rfl⟩, ⟨_, _, _, rfl, .inr ⟨rfl, rstPins, by decide, rfl⟩⟩, ⟨_, rfl⟩, ⟨_, rfl⟩⟩

/-- The hypotheses of `ResetEdge` and of `ResetAbortsCommand`. -/
theorem witness_reset_shapes :
    ((demo 50 64 0 0 [.edge rstPins [runPins]]).script = .edge rstPins [runPins] :: [] ∧ rstPins.rst = true) ∧
    ((demo 50 64 0 0 [present .run [rstPins]]).script = .edge ⟨false, true, encode .run⟩ [rstPins] :: [] ∧
      ∃ q ∈ [rstPins], q.rst = true) := ⟨⟨rfl, rfl⟩, rfl, rstPins, by decide, rfl⟩

/-- The edges the host has still to come, where there is a next state. -/
def scriptOf (o : Host.Outcome State Fault Refusal) : Option (List HostMove) :=
  match o with
  | .next t => some t.script
  | .fault _ => none
  | .refused _ => none

/-- R160, R65: after the edge that aborts a command `cmd_ready` is 1, so the RUN presented at the next edge is an edge of its own; the one
presented before the abort has had no effect. -/
theorem test_edges_after_abort :
    scriptOf (step (demo 50 64 0 0 [present .step [runPins, rstPins, runPins]])) = some [.edge runPins []] := by decide +kernel

/-- R65: with nothing presented at an edge, a RUN presented at the one after it finds `cmd_ready = 1`. -/
theorem test_edges_after_idle :
    scriptOf (step (demo 50 64 0 0 [.edge ⟨false, false, encode .step⟩ [runPins]])) = some [.edge runPins []] := by decide +kernel

/-- A byte inside and the bytes just outside the windows of an aborted STEP (`ResetAbortsCommand`, last clause). -/
theorem witness_abort_clause :
    ((31 : Nat) < (demo 50 64 24 32).ooff ∨ (demo 50 64 24 32).ooff + 32 ≤ 31) ∧
    ((64 : Nat) < (demo 50 64 24 32).ooff ∨ (demo 50 64 24 32).ooff + 32 ≤ 64) := by decide

/-- Registers all 0 with other memories than reset's, and the three commands (`AfterReset`). -/
theorem witness_after_reset :
    (demo 0 0 0 0).lenIn = 0 ∧ (demo 0 0 0 0).lenOut = 0 ∧ (demo 0 0 0 0).ioff = 0 ∧ (demo 0 0 0 0).ooff = 0 := ⟨rfl, rfl, rfl, rfl⟩

/-- An idle machine: nothing to come, and an edge with nothing presented. -/
theorem witness_idle :
    (demo 50 64 0 0).script = [] ∧
    (demo 50 64 0 0 [.edge ⟨false, false, encode .run⟩ [runPins]]).script = .edge ⟨false, false, encode .run⟩ [runPins] :: [] := ⟨rfl, rfl⟩

/-- An open call and a step that neither completes a command nor resets (`CallOpensOnlyAtInit`). -/
theorem witness_call_stays_open :
    callOpen (demo 50 64 0 0 [.edge ⟨false, false, encode .run⟩ [runPins]]) = true ∧
    (∀ c rest, ¬ Accepts (demo 50 64 0 0 [.edge ⟨false, false, encode .run⟩ [runPins]]) c rest) ∧
    ¬ Resets (demo 50 64 0 0 [.edge ⟨false, false, encode .run⟩ [runPins]]) ∧
    ∃ t, step (demo 50 64 0 0 [.edge ⟨false, false, encode .run⟩ [runPins]]) = .next t := by
  refine ⟨rfl, ?_, ?_, _, rfl⟩
  · rintro c rest ⟨busy, hs, -⟩
    cases hs
  · rintro ⟨p, busy, rest, hs, h⟩
    cases hs
    rcases h with h | ⟨h, -⟩ <;> cases h

/-- The host's three writes with a call open and with none. -/
theorem witness_host_moves :
    callOpen (demo 50 64 0 0 [.driveAlpha alphaRev]) = true ∧ alphaRev ≠ (demo 50 64 0 0).alphaTbl ∧
    callOpen (demo 50 64 0 0 [.writeIn 0 [1#8]]) = true ∧ callOpen (demo 50 64 0 0 [.writeOut 0 [1#8]]) = true ∧
    callOpen (demo 0 0 0 0 [.driveAlpha alphaRev]) = false ∧ callOpen (demo 50 64 48 64 [.writeIn 0 [1#8]]) = false ∧
    callOpen (demo 50 64 48 64 [.writeOut 64 [1#8]]) = false := by decide +kernel

/-- An open call and a step in it: a STEP (which is a command), and an edge with nothing presented (`OpenCallIsIsolated`). -/
theorem witness_open_call :
    callOpen (demo 50 64 0 0 [present .step []]) = true ∧ (∃ t, step (demo 50 64 0 0 [present .step []]) = .next t) ∧
    (∃ t, step (demo 50 64 0 0 [.edge ⟨false, false, encode .run⟩ []]) = .next t) := ⟨rfl, ⟨_, rfl⟩, ⟨_, rfl⟩⟩

/-- The ratio holds and is not trivial. -/
theorem witness_ratio : (demo 50 64 24 32 [present .step []]).ooff * 3 = (demo 50 64 24 32 [present .step []]).ioff * 4 := by decide

/-- Short buffers at their boundary (R82), and commands that may follow. -/
theorem witness_short_buffers :
    ((25 : Nat) < 26 ∨ (32 : Nat) < 32) ∧ ((26 : Nat) < 26 ∨ (31 : Nat) < 32) ∧
    ∀ i ∈ [Instr.step, .run, .rem], i = .step ∨ i = .run ∨ i = .rem := by decide

/-- A state with blocks left, and a number of STEPs below it (`RunIsStepsThenRem`). -/
theorem witness_blocksLeft : 1 < blocksLeft (demo 50 64 0 0) ∧ blocksLeft (demo 50 64 24 32) = 1 := by decide

/-- A block still to do in the closed form of RUN: `n0 = 1 <= 1 < N = 2`, `m = 31`, and an offset below and one above the windows. -/
theorem witness_run_closed_form :
    (demo 50 64 24 32).ioff / 24 ≤ 1 ∧ 1 < blockCount 50 64 ∧
    (31 : Nat) < 32 * ((demo 50 64 24 32).ioff / 24) ∧ 32 * blockCount 50 64 ≤ 64 := by decide

/-- The two sides of R91 and R143 at their boundary: input limits (with 1, 2 and 25 bytes), output limits. -/
theorem witness_remainder_sides :
    (1 - 2) / 24 ≤ 32 / 32 ∧ (2 - 2) / 24 ≤ 0 / 32 ∧ (49 - 2) / 24 ≤ 64 / 32 ∧ 63 / 32 < (50 - 2) / 24 := by decide

/-- Capacity at its boundary: V44, the contract asks for 64, 32 suffice. -/
theorem witness_capacity : 32 * (48 / 24) ≤ 64 ∧ CapacityOk 48 32 ∧ ¬ CapacityOk 50 63 :=
  ⟨by decide, by simp only [CapacityOk]; decide, by simp only [CapacityOk]; decide⟩

/-- Windows that agree in bytes 0 to 23 and differ in 24 and 25; and the all-zero and all-ones windows of V29 and V31. -/
theorem witness_windows :
    (∀ k, k < 24 → (List.replicate 24 0xFF#8 ++ [0#8, 0#8]).getD k 0 = (List.replicate 26 0xFF#8).getD k 0) ∧
    (∀ k, k < 24 → (List.replicate 24 0x00#8 ++ [0xFF#8, 0xFF#8]).getD k 0 = 0x00#8) ∧
    (∀ k, k < 24 → (List.replicate 24 0xFF#8 ++ [0#8, 0#8]).getD k 0 = 0xFF#8) := by decide

/-- Words that agree in the upper 48 bits and differ below (`ExtrProperties` c). -/
theorem witness_words : (0x000000000000FFFF#64).extractLsb' 16 48 = (0#64).extractLsb' 16 48 ∧ 0x000000000000FFFF#64 ≠ 0#64 := by decide

/-- A table of 64 bytes, all alike (V27), for `AlphabetPortLayout`. -/
theorem witness_table : (List.replicate 64 0x2A#8).length = 64 := by decide

/-- Accesses of a STEP that yields: a read of the last word, a write of the last byte; an offset that is not written. -/
theorem witness_accesses :
    Access.readIn 42 8 ∈ accesses .step (demo 50 64 24 32) ∧ Access.writeOut 63 ∈ accesses .step (demo 50 64 24 32) ∧
    Access.writeOut 64 ∉ accesses .step (demo 50 64 24 32) ∧ Access.writeOut 31 ∉ accesses .step (demo 50 64 24 32) := by
  decide +kernel

/-- True lengths at their boundary: memories of exactly the lengths. -/
theorem witness_lengths_true : LengthsTrue 50 64 (demo 50 64 24 32) ∧ ¬ LengthsTrue 49 64 (demo 50 64 24 32) := by
  simp only [LengthsTrue]; decide

/-- What `BuffersDisjoint` asks of `demo`'s buffers, address by address. -/
theorem buffersDisjoint_demo (a b c d : Nat) (others : List Region) :
    BuffersDisjoint ⟨a, b, others⟩ (demo c d 0 0) ↔
      (∀ x, b ≤ x ∧ x < b + d → ¬ (a ≤ x ∧ x < a + c)) ∧
      ∀ r ∈ others, ∀ x, b ≤ x ∧ x < b + d → ¬ (r.base ≤ x ∧ x < r.base + r.size) := Iff.rfl

/-- Disjoint buffers at their boundary (R163): `OUT` right behind `IN`, and another call's `OUT` right behind that; before `IN`; an empty `IN`
inside the range of `OUT`, which overlaps nothing. -/
theorem witness_placement :
    BuffersDisjoint ⟨0, 50, [⟨114, 32⟩]⟩ (demo 50 64 0 0) ∧ BuffersDisjoint ⟨64, 0, []⟩ (demo 50 64 0 0) ∧
    BuffersDisjoint ⟨10, 0, []⟩ (demo 0 64 0 0) := by
  simp only [buffersDisjoint_demo, List.forall_mem_singleton, List.not_mem_nil, false_imp_iff, implies_true, and_true]
  refine ⟨⟨?_, ?_⟩, ?_, ?_⟩ <;> omega

/-- Buffers that overlap in one byte (R163, R167, R168): `OUT` with `IN`, `OUT` with another call's `OUT`. -/
theorem test_placement_overlaps :
    ¬ BuffersDisjoint ⟨0, 49, []⟩ (demo 50 64 0 0) ∧ ¬ BuffersDisjoint ⟨0, 50, [⟨113, 32⟩]⟩ (demo 50 64 0 0) :=
  ⟨fun h => (buffersDisjoint_demo ..).1 h |>.1 49 (by decide) (by decide),
    fun h => (buffersDisjoint_demo ..).1 h |>.2 ⟨113, 32⟩ (by decide) 113 (by decide) (by decide)⟩

/-- `OutExclusive` (R163) at its boundary: a host write right behind `OUT[0 .. 64)` is no breach, one of its last byte is. -/
theorem test_out_exclusive :
    OutExclusive (demo 50 64 0 0 [.writeOut 64 [1#8]]) ∧ ¬ OutExclusive (demo 50 64 0 0 [.writeOut 63 [1#8]]) := by
  refine ⟨fun off bytes h => ?_, fun h => ?_⟩
  · cases h; exact .inr (by decide)
  · have := h 63 [1#8] rfl
    revert this; decide

/-- Input that differs only at or beyond `LEN_IN` (26 here; `IN[26] = 26`). -/
theorem witness_input_beyond :
    (∀ a, a < (demo 26 32 0 0).lenIn → ((demo 26 32 0 0).inMem.write 26 0xFF#8).read a = (demo 26 32 0 0).inMem.read a) ∧
    ((demo 26 32 0 0).inMem.write 26 0xFF#8).read 26 ≠ (demo 26 32 0 0).inMem.read 26 := by decide +kernel

/-- Input and a table that differ only where no access of a STEP reads: `IN[50]` (the window is `IN[24 .. 49]`), and an entry of the table that none
of its groups is (`InputBeyondLengthIrrelevant`, second clause). -/
theorem witness_unread :
    (∀ off n, Access.readIn off n ∈ accesses .step (demo 60 64 24 32) → ∀ k, k < n →
      ((demo 60 64 24 32).inMem.write 50 0xFF#8).read (off + k) = (demo 60 64 24 32).inMem.read (off + k)) ∧
    (∀ v, Access.readAlpha v ∈ accesses .step (demo 60 64 24 32) →
      mapByte (alphaId ^^^ (1#512 <<< 504)) v = mapByte (demo 60 64 24 32).alphaTbl v) ∧
    mapByte (alphaId ^^^ (1#512 <<< 504)) 63#6 ≠ mapByte alphaId 63#6 ∧ avail (demo 60 64 24 32) = true := by
  refine ⟨fun off n h k hk => ?_, by decide +kernel, by decide +kernel, by decide⟩
  have key : ∀ x ∈ accesses .step (demo 60 64 24 32), ∀ off n, x = .readIn off n → off + n ≤ 50 := by
    intro x hx off n he
    have : (accesses .step (demo 60 64 24 32)).all
        (fun x => match x with | .readIn off n => decide (off + n ≤ 50) | _ => true) = true := by decide +kernel
    have := List.all_eq_true.1 this x hx
    rw [he] at this
    simpa using this
  have := key _ h off n rfl
  rw [Memory.read_write, if_neg (by omega)]

/-- Input that differs only in the two bytes a RUN reads ahead (`IN[24]`, final `IOFF` 24). -/
theorem witness_remainder_bytes :
    ∃ t, exec .run (demo 26 32 0 0) = .next t ∧
      ∀ a, a < t.ioff → ((demo 26 32 0 0).inMem.write 24 0xFF#8).read a = (demo 26 32 0 0).inMem.read a :=
  ⟨_, rfl, by decide +kernel⟩

/-- Two states with the same registers and different data (`AccessPatternIgnoresData`). -/
theorem witness_same_registers :
    (demo 50 64 0 0).ioff = ({ demo 50 64 0 0 with inMem := [] } : State).ioff ∧ (demo 50 64 0 0).inMem ≠ [] := by decide +kernel

end Sys2Proof.Tests
end

section
/-! The law of MemRead and MemWrite (R10): a block read back is the block written, and every byte outside the block is as before. -/

namespace Sys2Proof.Machine

/-- MemRead after MemWrite at the same offset: the two lists have one length and agree at every index `k`, where both are the byte at `a + k`. -/
@[simp] theorem Memory.readBytes_writeBytes_same (m : Memory) (a : Nat) (bs : List Byte) :
    (m.writeBytes a bs).readBytes a bs.length = bs := by
  refine List.ext_getElem (Memory.length_readBytes _ _ _) fun k hread hk => ?_
  calc ((m.writeBytes a bs).readBytes a bs.length)[k]
      = ((m.writeBytes a bs).readBytes a bs.length).getD k 0 := (List.getD_eq_getElem _ _ hread).symm
    _ = (m.writeBytes a bs).read (a + k) := Memory.getD_readBytes _ _ _ _ hk _
    _ = bs.getD (a + k - a) 0 := by rw [Memory.read_writeBytes, if_pos (by omega)]
    _ = bs[k] := by rw [Nat.add_sub_cancel_left, List.getD_eq_getElem _ _ hk]

theorem Memory.read_writeBytes_of_outside (m : Memory) {a x : Nat} {bs : List Byte} (h : x < a ∨ a + bs.length ≤ x) :
    (m.writeBytes a bs).read x = m.read x := by
  rw [Memory.read_writeBytes, if_neg (by omega)]

/-- Settles O19: the read-back law, and the frame of a block write. -/
theorem readBytesAfterWriteBytes : Obligations.ReadBytesAfterWriteBytes :=
  fun m a bs => ⟨m.readBytes_writeBytes_same a bs, fun _ hx => m.read_writeBytes_of_outside hx⟩

end Sys2Proof.Machine
end

section
/-! Canonical byte spaces: the form is unique, and every command and every step keeps it. -/

namespace Sys2Proof.Machine

/-- In a canonical space the head is the lowest listed offset: what reads as listed is not below it. -/
theorem Memory.head_le_of_read_ne {a x : Nat} {b : Byte} {m : Memory} (h : Memory.wf ((a, b) :: m) = true)
    (hx : Memory.read ((a, b) :: m) x ≠ Config.unlistedByte) : a ≤ x := by
  obtain ⟨-, htail, -⟩ := (Memory.wf_cons a b m).1 h
  by_contra hlt
  have hlt : x < a := Nat.lt_of_not_le hlt
  refine hx (Memory.read_of_lt fun c hc => ?_)
  rcases List.mem_cons.1 hc with rfl | hc
  · exact hlt
  · exact hlt.trans (htail c hc)

theorem Memory.read_head_ne {a : Nat} {b : Byte} {m : Memory} (h : Memory.wf ((a, b) :: m) = true) :
    Memory.read ((a, b) :: m) a ≠ Config.unlistedByte := by
  rw [Memory.read_head]; exact ((Memory.wf_cons a b m).1 h).1

/-- Two canonical spaces that read alike have the same head, so their tails read alike too. -/
theorem Memory.eq_of_read_eq {m m' : Memory} (h : m.wf = true) (h' : m'.wf = true) (hr : ∀ x, m.read x = m'.read x) :
    m = m' := by
  induction m generalizing m' with
  | nil =>
    cases m' with
    | nil => rfl
    | cons c' m' => exact absurd (hr c'.1).symm (Memory.read_head_ne h')
  | cons c m ih =>
    obtain ⟨a, b⟩ := c
    cases m' with
    | nil => exact absurd (hr a) (Memory.read_head_ne h)
    | cons c' m' =>
      obtain ⟨a', b'⟩ := c'
      have ha : a = a' := Nat.le_antisymm
        (Memory.head_le_of_read_ne h (by rw [hr]; exact Memory.read_head_ne h'))
        (Memory.head_le_of_read_ne h' (by rw [← hr]; exact Memory.read_head_ne h))
      subst ha
      have hb : b = b' := by simpa only [Memory.read_head] using hr a
      obtain ⟨-, htail, hm⟩ := (Memory.wf_cons a b m).1 h
      obtain ⟨-, htail', hm'⟩ := (Memory.wf_cons a b' m').1 h'
      have hrest : ∀ x, Memory.read m x = Memory.read m' x := fun x => by
        by_cases hx : a = x
        · subst hx; rw [Memory.read_of_lt htail, Memory.read_of_lt htail']
        · simpa only [Memory.read, if_neg hx] using hr x
      rw [hb, ih hm hm' hrest]

/-- Settles O18, by induction on the first space: equal heads, and tails that read alike. -/
theorem canonicalFormIsUnique : Obligations.CanonicalFormIsUnique :=
  fun _ _ => Memory.eq_of_read_eq

theorem exec_keeps_memoriesCanonical {i : Instr} {s t : State} (hs : MemoriesCanonical s) (h : exec i s = .next t) :
    MemoriesCanonical t := by
  obtain ⟨hin, hout⟩ := hs
  rcases exec_cases i s with ⟨a, b, -, he⟩ | ⟨k, y, -, -, he⟩ <;> (rw [he] at h; cases h)
  · exact ⟨hin, hout⟩
  · exact ⟨by simpa using hin, blockSteps_wf k hout⟩

/-- Settles O17, by the cases of a step: what writes `IN` or `OUT` is a block of bytes, or the drawn bytes of an aborted command. -/
theorem memoriesStayCanonical : Obligations.MemoriesStayCanonical := by
  intro s t hs h
  have ⟨hin, hout⟩ := hs
  cases step_cases h with
  | quiet _ ht => subst ht; exact hs
  | command c rest _ ht => exact exec_keeps_memoriesCanonical (s := s.after rest) hs ht
  | aborted c busy later rest u _ _ _ ht => subst ht; exact ⟨hin, Memory.wf_drawBytes _ hout _ _ _⟩
  | reset p busy rest _ _ ht => subst ht; exact hs
  | nothing p busy rest _ _ _ ht => subst ht; exact hs
  | driveAlpha tbl rest _ _ ht => subst ht; exact hs
  | writeIn off bytes rest _ _ ht => subst ht; exact ⟨Memory.wf_writeBytes hin off bytes, hout⟩
  | writeOut off bytes rest _ _ ht => subst ht; exact ⟨hin, Memory.wf_writeBytes hout off bytes⟩

end Sys2Proof.Machine
end

section
/-! The four registers and the response across one step, said once (`step_regs`, `step_rsp`), and the rules that follow: the
lengths, the cursors, `EXH` and the widths of the response ports. -/

namespace Sys2Proof.Machine

/-- What one step can do to the four registers. -/
inductive RegsCase (s t : State) : Prop where
  /-- An INIT is accepted and completes; its operands come from the ports. -/
  | init (h : AcceptsInit s) (hin : FitsPort t.lenIn) (hout : FitsPort t.lenOut) (hi : t.ioff = 0) (ho : t.ooff = 0)
  /-- Some of the blocks that are left are encoded: none by a host's move or REM. -/
  | blocks (n : Nat) (hn : n ≤ blocksLeft s) (hin : t.lenIn = s.lenIn) (hout : t.lenOut = s.lenOut)
      (hi : t.ioff = s.ioff + 24 * n) (ho : t.ooff = s.ooff + 32 * n)
  /-- The engine is reset. -/
  | reset (h : Resets s) (hin : t.lenIn = 0) (hout : t.lenOut = 0) (hi : t.ioff = 0) (ho : t.ooff = 0)

/-- An INIT that the decoder reads has operands the ports can carry (R62). -/
theorem fitsPort_of_decode_init {c : CmdPort} {a b : Nat} (h : decode c = .init a b) : FitsPort a ∧ FitsPort b := by
  obtain ⟨op, p, q⟩ := c
  rcases op_cases op with rfl | rfl | rfl | rfl
  · rw [decode_init] at h; cases h; exact ⟨fitsPort_toNat p, fitsPort_toNat q⟩
  · rw [decode_step] at h; cases h
  · rw [decode_run] at h; cases h
  · rw [decode_rem] at h; cases h

theorem command_regs {s t : State} {c : CmdPort} {rest : List HostMove} (hacc : Accepts s c rest)
    (h : exec (decode c) (s.after rest) = .next t) : RegsCase s t := by
  rcases exec_cases (decode c) (s.after rest) with ⟨a, b, hd, he⟩ | ⟨n, y, hn, -, he⟩ <;> (rw [he] at h; cases h)
  · obtain ⟨ha, hb⟩ := fitsPort_of_decode_init hd
    exact .init ⟨c, rest, a, b, hacc, hd⟩ ha hb rfl rfl
  · exact .blocks n hn (by simp) (by simp) (by simp) (by simp)

theorem step_regs {s t : State} (h : step s = .next t) : RegsCase s t := by
  cases step_cases h with
  | quiet _ ht => subst ht; exact .blocks 0 (Nat.zero_le _) rfl rfl rfl rfl
  | command c rest hacc ht => exact command_regs hacc ht
  | aborted c busy later rest u hs hr _ ht =>
    subst ht; exact .reset ⟨_, busy, rest, hs, .inr ⟨rfl, hr.exists_rst⟩⟩ rfl rfl rfl rfl
  | reset p busy rest hs hp ht => subst ht; exact .reset ⟨p, busy, rest, hs, .inl hp⟩ rfl rfl rfl rfl
  | nothing p busy rest _ _ _ ht => subst ht; exact .blocks 0 (Nat.zero_le _) rfl rfl rfl rfl
  | driveAlpha tbl rest _ _ ht => subst ht; exact .blocks 0 (Nat.zero_le _) rfl rfl rfl rfl
  | writeIn off bytes rest _ _ ht => subst ht; exact .blocks 0 (Nat.zero_le _) rfl rfl rfl rfl
  | writeOut off bytes rest _ _ ht => subst ht; exact .blocks 0 (Nat.zero_le _) rfl rfl rfl rfl

/-- Every command answers with the record of the state after it (R63). -/
theorem exec_rsp {i : Instr} {s t : State} (h : exec i s = .next t) : ∃ y, t.rsp = some (responseOf y t) := by
  rcases exec_cases i s with ⟨a, b, -, he⟩ | ⟨k, y, -, -, he⟩ <;> (rw [he] at h; cases h)
  · exact ⟨false, rfl⟩
  · exact ⟨y, rfl⟩

/-- A response on the ports after a step is the record of the state after it (R63): only a completed command delivers one. -/
theorem step_rsp {s t : State} {r : Response} (h : step s = .next t) (hr : t.rsp = some r) : ∃ y, r = responseOf y t := by
  cases step_cases h with
  | command c rest _ ht =>
    obtain ⟨y, hy⟩ := exec_rsp ht
    exact ⟨y, Option.some.inj (hr.symm.trans hy)⟩
  | quiet _ ht => subst ht; cases hr
  | aborted c busy later rest u _ _ _ ht => subst ht; cases hr
  | reset p busy rest _ _ ht => subst ht; cases hr
  | nothing p busy rest _ _ _ ht => subst ht; cases hr
  | driveAlpha tbl rest _ _ ht => subst ht; cases hr
  | writeIn off bytes rest _ _ ht => subst ht; cases hr
  | writeOut off bytes rest _ _ ht => subst ht; cases hr

/-- Where blocks are encoded, the cursors stay inside the buffers (R86). -/
theorem cursors_le_of_blocksLeft {s : State} {n : Nat} (hn : n ≤ blocksLeft s) (hpos : 0 < n) :
    s.ioff + 24 * n ≤ s.lenIn ∧ s.ooff + 32 * n ≤ s.lenOut := by
  rw [blocksLeft_eq] at hn
  omega

/-- Every step keeps the widths of the registers (R20, R86). -/
theorem step_keeps_regsFit {s t : State} (hs : RegsFit s) (h : step s = .next t) : RegsFit t := by
  obtain ⟨hin, hout, hi, ho⟩ := hs
  cases step_regs h with
  | init _ tin tout tioff tooff => exact ⟨tin, tout, tioff ▸ fitsPort_zero, tooff ▸ fitsPort_zero⟩
  | reset _ tin tout tioff tooff => exact ⟨tin ▸ fitsPort_zero, tout ▸ fitsPort_zero, tioff ▸ fitsPort_zero, tooff ▸ fitsPort_zero⟩
  | blocks n hn tin tout tioff tooff =>
    rw [RegsFit, tin, tout, tioff, tooff]
    rcases Nat.eq_zero_or_pos n with rfl | hpos
    · exact ⟨hin, hout, hi, ho⟩
    · obtain ⟨hle, hle'⟩ := cursors_le_of_blocksLeft hn hpos
      exact ⟨hin, hout, fitsPort_of_le hle hin, fitsPort_of_le hle' hout⟩

theorem responseOf_fits (y : Bool) {s : State} (h : RegsFit s) : ResponseFits (responseOf y s) := by
  obtain ⟨hin, hout, hi, ho⟩ := h
  exact ⟨hi, fitsPort_of_le (Nat.sub_le _ _) hin, ho, fitsPort_of_le (Nat.sub_le _ _) hout⟩

/-- Settles O24: the response is computed from the registers after the step, which fit. -/
theorem responsesFitThePorts : Obligations.ResponsesFitThePorts := by
  intro s t r _ hfit h hr
  obtain ⟨y, rfl⟩ := step_rsp h hr
  exact responseOf_fits y (step_keeps_regsFit hfit h)

/-- Settles O22, by what a step can do to the registers. -/
theorem lengthsChangeOnlyAtInitOrReset : Obligations.LengthsChangeOnlyAtInitOrReset := by
  intro s t h hinit hreset
  cases step_regs h with
  | init hacc => exact absurd hacc hinit
  | reset hr => exact absurd hr hreset
  | blocks n _ hin hout => exact ⟨hin, hout⟩

/-- Settles O23, by what a step can do to the registers. -/
theorem cursorsMoveByBlocks : Obligations.CursorsMoveByBlocks := by
  refine ⟨fun s t h hinit hreset => ?_, fun s hs => ?_⟩
  · cases step_regs h with
    | init hacc => exact absurd hacc hinit
    | reset hr => exact absurd hr hreset
    | blocks n _ _ _ hi ho => exact ⟨n, hi, ho⟩
  · obtain ⟨n, hi, ho, -⟩ := hs
    omega

/-- Exhausted, no block is left to move the cursors; after a reset both buffers are empty (R24). -/
theorem step_keeps_exh {s t : State} (hs : exh s = true) (h : step s = .next t) (hinit : ¬ AcceptsInit s) : exh t = true := by
  cases step_regs h with
  | init hacc => exact absurd hacc hinit
  | reset _ hin => exact (exh_iff t).2 (.inl (by omega))
  | blocks n hn hin hout hi ho =>
    rw [blocksLeft_eq_zero (avail_of_exh hs), Nat.le_zero] at hn
    subst hn
    rwa [exh_congr hin hout hi ho]

/-- Settles O21: the formula, the response of every command, and `step_keeps_exh`. -/
theorem exhaustedUntilNextInit : Obligations.ExhaustedUntilNextInit := by
  refine ⟨fun s => by rw [exh_eq_decide, decide_eq_true_iff], rfl, fun i s t h => ?_, fun s t => step_keeps_exh, fun s hs => ?_⟩
  · obtain ⟨y, hy⟩ := exec_rsp h
    exact ⟨responseOf y t, hy, rfl⟩
  · obtain ⟨n, -, -, hin, hout, -⟩ := hs
    exact ⟨hin, hout⟩

end Sys2Proof.Machine
end

section
/-! The state after reset, and an open call: what no step changes while one is open. -/

namespace Sys2Proof.Machine

/-- Settles O16: no block done, registers 0, both spaces without an entry. -/
theorem invariantAtReset : Obligations.InvariantAtReset :=
  ⟨⟨0, rfl, rfl, le_refl 0, le_refl 0, fun h => absurd h (by decide)⟩,
    ⟨fitsPort_zero, fitsPort_zero, fitsPort_zero, fitsPort_zero⟩, rfl, rfl⟩

/-- Exhausted, every command but INIT only answers (R82, R89, R123). -/
theorem exec_of_exh {i : Instr} {s : State} (h : exh s = true) (hi : i = .step ∨ i = .run ∨ i = .rem) :
    exec i s = .next (respond false s) := by
  have ha := avail_of_exh h
  rcases hi with rfl | rfl | rfl
  · rw [exec_step, ha]; rfl
  · rw [exec_run, blocksLeft_eq_zero ha]; rfl
  · exact exec_rem s

/-- Settles O57: with the four registers 0 the iterator is exhausted, so the commands only answer. -/
theorem afterReset : Obligations.AfterReset := by
  refine ⟨⟨rfl, rfl, rfl, rfl, rfl, rfl, rfl⟩, fun s hin hout hi ho i hcmd => ?_⟩
  have hexh : exh s = true := (exh_iff s).2 (.inl (by omega))
  rw [exec_of_exh hexh hcmd]
  simp only [respond, responseOf, hexh, hin, hout, hi, ho]

/-- While a call is open the host's write of `OUT` is refused (U5), so a step to a next state has another move first. -/
theorem script_ne_writeOut_of_open {s t : State} (ho : callOpen s = true) (h : step s = .next t) (off : Nat) (bytes : List Byte) :
    s.script.head? ≠ some (.writeOut off bytes) := by
  intro hs
  obtain ⟨rest, hs⟩ := List.head?_eq_some_iff.1 hs
  have hrefused : step s = .refused .hostWroteOut := by
    simp only [step, nextEvent, hs, hostMove, hostWriteOut]
    exact if_pos ho
  rw [hrefused] at h
  cases h

theorem step_inputs_of_open {s t : State} (ho : callOpen s = true) (h : step s = .next t) :
    t.inMem = s.inMem ∧ t.alphaTbl = s.alphaTbl := by
  cases step_cases h with
  | quiet _ ht => subst ht; exact ⟨rfl, rfl⟩
  | command c rest _ ht =>
    obtain ⟨hin, halpha, -, -⟩ := exec_frame ht
    exact ⟨hin, halpha⟩
  | aborted c busy later rest u _ _ _ ht => subst ht; exact ⟨rfl, rfl⟩
  | reset p busy rest _ _ ht => subst ht; exact ⟨rfl, rfl⟩
  | nothing p busy rest _ _ _ ht => subst ht; exact ⟨rfl, rfl⟩
  | driveAlpha tbl rest _ hsame ht => subst ht; exact ⟨rfl, hsame ho⟩
  | writeIn off bytes rest _ hc => rw [hc] at ho; cases ho
  | writeOut off bytes rest _ hc => rw [hc] at ho; cases ho

/-- While a call is open, `OUT` changes only at an edge that presents a command without reset. -/
theorem step_outMem_of_open {s t : State} (ho : callOpen s = true) (h : step s = .next t)
    (hcmd : ∀ p busy rest, s.script = .edge p busy :: rest → p.valid = false ∨ p.rst = true) : t.outMem = s.outMem := by
  cases step_cases h with
  | quiet _ ht => subst ht; rfl
  | command c rest hacc =>
    obtain ⟨busy, hs, -⟩ := hacc
    exact absurd (hcmd _ _ _ hs) (by simp)
  | aborted c busy later rest u hs => exact absurd (hcmd _ _ _ hs) (by simp)
  | reset p busy rest _ _ ht => subst ht; rfl
  | nothing p busy rest _ _ _ ht => subst ht; rfl
  | driveAlpha tbl rest _ _ ht => subst ht; rfl
  | writeIn off bytes rest _ hc => rw [hc] at ho; cases ho
  | writeOut off bytes rest _ hc => rw [hc] at ho; cases ho

/-- Settles O52: the inputs, the host's refused writes, and `OUT` without a command. -/
theorem openCallIsIsolated : Obligations.OpenCallIsIsolated := by
  intro s t ho h
  obtain ⟨hin, halpha⟩ := step_inputs_of_open ho h
  have hne := script_ne_writeOut_of_open ho h
  exact ⟨halpha, fun a _ => by rw [hin], hin, fun off bytes hs => absurd hs (hne off bytes), hne, step_outMem_of_open ho h⟩

end Sys2Proof.Machine
end

section
/-! An encode call: which steps open it, close it or leave it as it is (R47), and the host's moves that are refused meanwhile (U5). -/

namespace Sys2Proof.Machine

/-- Settles O8, by the frame that every command keeps. -/
theorem commandsNeverWriteInputs : Obligations.CommandsNeverWriteInputs :=
  fun _ _ _ => exec_frame

/-- Where the next move is an edge, whether the step resets is read off its pins. -/
theorem resets_iff_of_edge {s : State} {p : Pins} {busy : List Pins} {rest : List HostMove} (hs : s.script = .edge p busy :: rest) :
    Resets s ↔ p.rst = true ∨ p.valid = true ∧ ∃ q ∈ busy, q.rst = true := by
  constructor
  · rintro ⟨p', busy', rest', hs', hrst⟩
    rw [hs] at hs'
    cases hs'
    exact hrst
  · exact fun hrst => ⟨p, busy, rest, hs, hrst⟩

/-- An accepted command is one that no reset aborts (R65, R161). -/
theorem not_resets_of_accepts {s : State} {c : CmdPort} {rest : List HostMove} (h : Accepts s c rest) : ¬ Resets s := by
  obtain ⟨busy, hs, hbusy⟩ := h
  rw [resets_iff_of_edge hs]
  rintro (hrst | ⟨-, q, hq, hrst⟩)
  · cases hrst
  · rw [hbusy q hq] at hrst; cases hrst

/-- A step that resets leaves an exhausted iterator (R160, R161): any other step has a next move that does not reset. -/
theorem exh_of_resets {s t : State} (hr : Resets s) (h : step s = .next t) : exh t = true := by
  cases step_cases h with
  | aborted c busy later rest u _ _ _ ht => subst ht; rfl
  | reset p busy rest _ _ ht => subst ht; rfl
  | command c rest hacc => exact absurd hr (not_resets_of_accepts hacc)
  | nothing p busy rest hs hp hv =>
    rw [resets_iff_of_edge hs, hp, hv] at hr
    simp at hr
  | quiet hs | driveAlpha _ _ hs | writeIn _ _ _ hs | writeOut _ _ _ hs =>
    obtain ⟨p, busy, rest, hs', -⟩ := hr
    rw [hs] at hs'
    cases hs'

/-- A step that neither accepts a command nor resets holds the registers, and with them `EXH` (R151, R152). -/
theorem exh_of_no_command {s t : State} (hacc : ∀ c rest, ¬ Accepts s c rest) (hr : ¬ Resets s) (h : step s = .next t) :
    exh t = exh s := by
  cases step_cases h with
  | command c rest h' => exact absurd h' (hacc c rest)
  | aborted c busy later rest u hs hfirst => exact absurd ⟨_, busy, rest, hs, .inr ⟨rfl, hfirst.exists_rst⟩⟩ hr
  | reset p busy rest hs hp => exact absurd ⟨p, busy, rest, hs, .inl hp⟩ hr
  | quiet _ ht | nothing _ _ _ _ _ _ ht | driveAlpha _ _ _ _ ht | writeIn _ _ _ _ _ ht | writeOut _ _ _ _ _ ht =>
    subst ht; rfl

/-- Settles O55: a call is open where `EXH` is 0, so each clause is what a command or a step does to `EXH`. -/
theorem callOpensOnlyAtInit : Obligations.CallOpensOnlyAtInit := by
  refine ⟨fun i s t h => ?_, fun s t hr h => ?_, fun s t hacc hr h => ?_, fun s t hclosed hinit h => ?_⟩
  · obtain ⟨y, hy⟩ := exec_rsp h
    exact ⟨responseOf y t, hy, rfl⟩
  · rw [callOpen, exh_of_resets hr h, Bool.not_true]
  · rw [callOpen, callOpen, exh_of_no_command hacc hr h]
  · have hexh : exh s = true := by simpa [callOpen] using hclosed
    rw [callOpen, step_keeps_exh hexh h hinit, Bool.not_true]

/-- A step takes the first of the host's moves. -/
theorem step_of_script_cons {s : State} {m : HostMove} {rest : List HostMove} (hs : s.script = m :: rest) :
    step s = hostMove m (s.after rest) := by
  simp only [step, nextEvent, hs]

/-- Settles O53: each of the three moves asks first whether a call is open, which taking the move off the list does not change. -/
theorem hostWritesRefusedDuringCall : Obligations.HostWritesRefusedDuringCall := by
  intro s rest ho
  have ho' : callOpen (s.after rest) = true := ho
  refine ⟨fun tbl hne hs => ?_, fun off bytes hs => ?_, fun off bytes hs => ?_⟩ <;> rw [step_of_script_cons hs]
  · exact if_pos (by simpa [ho'] using hne)
  · exact if_pos ho'
  · exact if_pos ho'

end Sys2Proof.Machine
end

section
/-! Decoder and encoder (R61, R62, R64): the four codes read once (`decode_cases`), and what follows for the round trip and for equal
decodings. -/

namespace Sys2Proof

/-- What the decoder can read, said once: one command per code, and only INIT looks at the operand ports. -/
theorem decode_cases (c : CmdPort) :
    (c.op = 0b00#2 ∧ decode c = .init c.lenIn.toNat c.lenOut.toNat) ∨ (c.op = 0b01#2 ∧ decode c = .step) ∨
    (c.op = 0b10#2 ∧ decode c = .run) ∨ (c.op = 0b11#2 ∧ decode c = .rem) := by
  obtain ⟨op, p, q⟩ := c
  rcases op_cases op with rfl | rfl | rfl | rfl
  · exact .inl ⟨rfl, decode_init p q⟩
  · exact .inr (.inl ⟨rfl, decode_step p q⟩)
  · exact .inr (.inr (.inl ⟨rfl, decode_run p q⟩))
  · exact .inr (.inr (.inr ⟨rfl, decode_rem p q⟩))

theorem decode_of_op_zero {c : CmdPort} (h : c.op = 0b00#2) : decode c = .init c.lenIn.toNat c.lenOut.toNat := by
  obtain ⟨op, p, q⟩ := c
  cases h
  exact decode_init p q

@[simp] theorem opCode_decode (c : CmdPort) : (decode c).opCode = c.op := by
  rcases decode_cases c with ⟨hop, hd⟩ | ⟨hop, hd⟩ | ⟨hop, hd⟩ | ⟨hop, hd⟩ <;> rw [hop, hd] <;> rfl

theorem wellFormed_decode (c : CmdPort) : (decode c).WellFormed = true := by
  rcases decode_cases c with ⟨-, hd⟩ | ⟨-, hd⟩ | ⟨-, hd⟩ | ⟨-, hd⟩ <;> rw [hd]
  · exact (wellFormed_init _ _).2 ⟨fitsPort_toNat _, fitsPort_toNat _⟩
  all_goals rfl

/-- An operand that fits its port survives the trip through it. -/
theorem decode_encode {i : Instr} (h : i.WellFormed = true) : decode (encode i) = i := by
  cases i with
  | init a b =>
    obtain ⟨ha, hb⟩ := (wellFormed_init a b).1 h
    rw [encode, Instr.opCode, decode_init, BitVec.toNat_ofNat, BitVec.toNat_ofNat, Nat.mod_eq_of_lt ha, Nat.mod_eq_of_lt hb]
  | step => exact decode_step _ _
  | run => exact decode_run _ _
  | rem => exact decode_rem _ _

/-- Equal decodings have equal codes (`opCode_decode`), and an INIT carries both operands. -/
theorem decode_eq_iff (c c' : CmdPort) :
    decode c = decode c' ↔ c.op = c'.op ∧ (c.op = 0b00#2 → c.lenIn = c'.lenIn ∧ c.lenOut = c'.lenOut) := by
  constructor
  · intro h
    have hop : c.op = c'.op := by rw [← opCode_decode c, h, opCode_decode]
    refine ⟨hop, fun h0 => ?_⟩
    rw [decode_of_op_zero h0, decode_of_op_zero (hop ▸ h0)] at h
    injection h with hin hout
    exact ⟨BitVec.eq_of_toNat_eq hin, BitVec.eq_of_toNat_eq hout⟩
  · obtain ⟨op, p, q⟩ := c
    obtain ⟨op', p', q'⟩ := c'
    rintro ⟨rfl, hports⟩
    rcases op_cases op with rfl | rfl | rfl | rfl
    · obtain ⟨rfl, rfl⟩ := hports rfl
      rfl
    · rw [decode_step, decode_step]
    · rw [decode_run, decode_run]
    · rw [decode_rem, decode_rem]

/-- Settles O11: the round trip, the code and the form of what is read, and equal decodings. -/
theorem decodeAndEncodeAgree : Obligations.DecodeAndEncodeAgree :=
  ⟨fun _ => decode_encode, fun c => ⟨wellFormed_decode c, opCode_decode c⟩, decode_eq_iff⟩

/-- Settles O12: the decoder at each of the four codes, with both operand ports at zero. -/
theorem tableCodesDecode : Obligations.TableCodesDecode :=
  ⟨congrArg some ((decode_init _ _).trans (by rw [BitVec.toNat_zero])), congrArg some (decode_step _ _),
    congrArg some (decode_run _ _), congrArg some (decode_rem _ _)⟩

end Sys2Proof
end

section
/-! Commands at the ports: the step that accepts one (R65), the response it delivers (R63), and the pseudo-command ENCODE (R67). -/

namespace Sys2Proof.Machine

/-- Settles O13: the edges that pass meanwhile are read for a reset only, so none at all makes the same step. -/
theorem acceptedCommandRuns : Obligations.AcceptedCommandRuns := by
  intro s c busy rest hs hbusy
  have hrun : step s = exec (decode c) (s.after rest) := step_of_accepts ⟨busy, hs, hbusy⟩
  have halone : step (s.after (.edge ⟨false, true, c⟩ [] :: rest)) = exec (decode c) (s.after rest) :=
    step_of_accepts ⟨[], rfl, by simp⟩
  exact ⟨hrun, hrun.trans halone.symm⟩

/-- Settles O14: both sides are the definition of ENCODE. -/
theorem encodeExpandsToInitRun : Obligations.EncodeExpandsToInitRun := fun _ _ => ⟨rfl, rfl⟩

/-- The response of a command, with its `yielded`: 1 for a STEP that had a window, 0 for everything else (R25, R63). -/
theorem exec_rsp_eq {i : Instr} {s t : State} (h : exec i s = .next t) :
    t.rsp = some (responseOf (decide (i = .step) && avail s) t) := by
  cases i with
  | init a b => rw [exec_init] at h; cases h; rfl
  | step =>
    rw [exec_step] at h
    cases ha : avail s <;> rw [ha] at h <;> cases h <;> rfl
  | run => rw [exec_run] at h; cases h; rfl
  | rem => rw [exec_rem] at h; cases h; rfl

/-- Settles O9: the record of `exec_rsp_eq`, field by field. -/
theorem everyCommandResponds : Obligations.EveryCommandResponds := by
  intro i s t h
  rw [exec_rsp_eq h, responseOf, exh_eq_decide]

end Sys2Proof.Machine
end

section
/-! Layouts of the datapath: the bytes of a word (R69), the entries of the alphabet port (R66), the bytes of the output window (R71). -/

namespace Sys2Proof.Machine

/-- Byte `k` of a word is 8 bits of it, first byte most significant (R69): for each `k` one branch of `be64_bit` is left. -/
theorem loadw_byte (win : List Byte) (i : Nat) {k : Nat} (hk : k < 8) :
    (loadw win i).extractLsb' (56 - 8 * k) 8 = winByte win (6 * i + k) := by
  apply BitVec.eq_of_getLsbD_eq
  intro t ht
  rw [BitVec.getLsbD_extractLsb', decide_eq_true ht, Bool.true_and]
  simp only [loadw, Config.SUBIN, be64_bit]
  interval_cases k <;> grind

/-- Settles O26: the bytes of a word, and the bytes of a window. -/
theorem wordLayout : Obligations.WordLayout :=
  ⟨fun win i _ => loadw_byte win i, fun s _ => winByte_inputWindow s, length_inputWindow⟩

theorem mapByte_bit (tbl : AlphaTbl) (v : Group) {t : Nat} (ht : t < 8) :
    (mapByte tbl v).getLsbD t = tbl.getLsbD (8 * v.toNat + t) := by
  rw [mapByte, BitVec.getLsbD_extractLsb', decide_eq_true ht, Bool.true_and]

/-- The port built from a list, bit by bit: each entry stands 8 bits above the one before it (R66). -/
theorem alphaOfBytes_bit (bs : List Byte) {v t : Nat} (hv : v < 64) (ht : t < 8) :
    (alphaOfBytes bs).getLsbD (8 * v + t) = (bs.getD v 0).getLsbD t := by
  induction bs generalizing v with
  | nil => simp [alphaOfBytes]
  | cons b bs ih =>
    have hlt : 8 * v + t < 512 := by omega
    rw [alphaOfBytes, BitVec.getLsbD_or, BitVec.getLsbD_shiftLeft, BitVec.getLsbD_setWidth]
    cases v with
    | zero =>
      have hwide : t < 512 := by omega
      simp [ht, hwide]
    | succ v =>
      have hhigh : b.getLsbD (8 * (v + 1) + t) = false := BitVec.getLsbD_of_ge _ _ (by omega)
      have hshift : 8 * (v + 1) + t - 8 = 8 * v + t := by omega
      have hge : ¬ 8 * (v + 1) + t < 8 := by omega
      simp [hlt, hhigh, hshift, hge, ih (v := v) (by omega)]

theorem mapByte_alphaOfBytes (bs : List Byte) (v : Group) : mapByte (alphaOfBytes bs) v = bs.getD v.toNat 0 := by
  apply BitVec.eq_of_getLsbD_eq
  intro t ht
  rw [mapByte_bit _ _ ht, alphaOfBytes_bit _ v.isLt ht]

/-- Settles O31: the bits of an entry, and the port built from 64 bytes. -/
theorem alphabetPortLayout : Obligations.AlphabetPortLayout :=
  ⟨fun tbl v _ => mapByte_bit tbl v, fun bs v _ => mapByte_alphaOfBytes bs v⟩

/-- One block puts byte `j` of word `i` at window index `8i + j` (R71, R108). -/
theorem read_blockStep_group (s : State) {i j : Nat} (hi : i < 4) (hj : j < 8) :
    (blockStep s).outMem.read (s.ooff + (8 * i + j)) = mapByte s.alphaTbl (extr (loadw (inputWindow s) i) j) := by
  rw [read_blockStep, if_pos (by omega), Nat.add_sub_cancel_left, getD_encblk _ _ hi hj]

/-- A window index is `8i + j` for its quotient and remainder only (R71). -/
theorem existsUnique_group {m : Nat} (hm : m < 32) : ∃! p : Nat × Nat, p.1 < 4 ∧ p.2 < 8 ∧ 8 * p.1 + p.2 = m := by
  refine ⟨(m / 8, m % 8), ⟨by omega, by omega, by omega⟩, ?_⟩
  rintro ⟨i, j⟩ ⟨-, hj, hij⟩
  simp only at hj hij
  rw [Prod.mk.injEq]
  omega

/-- Settles O36: the bytes of the block that a STEP with a window writes, and the unique pair of an index. -/
theorem outputWindowLayout : Obligations.OutputWindowLayout := by
  refine ⟨fun s ha => ⟨respond true (blockStep s), ?_, fun i j => ?_⟩, fun m => existsUnique_group⟩
  · rw [exec_step, if_pos ha]
  · rw [respond_outMem]; exact read_blockStep_group s

end Sys2Proof.Machine
end

section
/-! The flat view of a block (R72): `S` bit by bit, a group as six bits of `S` and as six bits of two neighbouring bytes. -/

namespace Sys2Proof.Machine

/-- The first `n` window bytes as one number, the first most significant: how `flatString` is built up. -/
def flatBytes (win : List Byte) (n : Nat) : BitVec 192 :=
  (List.range n).foldl (fun acc k => (acc <<< 8) ||| (winByte win k).setWidth 192) 0#192

theorem flatString_eq_flatBytes (win : List Byte) : flatString win = flatBytes win 24 := rfl

theorem flatBytes_succ (win : List Byte) (n : Nat) :
    flatBytes win (n + 1) = (flatBytes win n <<< 8) ||| (winByte win n).setWidth 192 := by
  rw [flatBytes, List.range_succ, List.foldl_append]; rfl

/-- Bit `r` from the top of the first `n` bytes is bit `r mod 8` from the top of byte `r div 8`. -/
theorem flatBytes_bit (win : List Byte) {n r : Nat} (hn : n ≤ 24) (hr : r < 8 * n) :
    (flatBytes win n).getLsbD (8 * n - 1 - r) = (winByte win (r / 8)).getLsbD (7 - r % 8) := by
  induction n with
  | zero => omega
  | succ n ih =>
    rw [flatBytes_succ, BitVec.getLsbD_or, BitVec.getLsbD_shiftLeft, BitVec.getLsbD_setWidth]
    have hlt : 8 * (n + 1) - 1 - r < 192 := by omega
    by_cases hlast : 8 * n ≤ r
    · have hq : r / 8 = n := by omega
      have hb : 8 * (n + 1) - 1 - r = 7 - r % 8 := by omega
      have hlow : 8 * (n + 1) - 1 - r < 8 := by omega
      rw [decide_eq_true hlow, decide_eq_true hlt, hq, hb]
      simp
    · have hhigh : (winByte win n).getLsbD (8 * (n + 1) - 1 - r) = false := BitVec.getLsbD_of_ge _ _ (by omega)
      have hshift : 8 * (n + 1) - 1 - r - 8 = 8 * n - 1 - r := by omega
      have hge : ¬ 8 * (n + 1) - 1 - r < 8 := by omega
      rw [hhigh, decide_eq_true hlt, decide_eq_false hge, hshift, ih (by omega) (by omega)]
      simp

/-- Group `m` of a block is `S[191-6m : 186-6m]` (R72). -/
theorem group_eq_flat (win : List Byte) {m : Nat} (hm : m < 32) :
    extr (loadw win (m / 8)) (m % 8) = (flatString win).extractLsb' (186 - 6 * m) 6 := by
  apply BitVec.eq_of_getLsbD_eq
  intro t ht
  have hpos : 186 - 6 * m + t = 8 * 24 - 1 - (6 * m + (5 - t)) := by omega
  rw [group_bit win ht, BitVec.getLsbD_extractLsb', decide_eq_true ht, Bool.true_and, hpos, flatString_eq_flatBytes,
    flatBytes_bit win (le_refl 24) (by omega)]

/-- Group `m` of a block lies in two neighbouring bytes (R72): with `6m = 8q + r` it is the six bits from bit `r` of byte `q` on. -/
theorem group_eq_of_bytes (win : List Byte) (m : Nat) :
    extr (loadw win (m / 8)) (m % 8) =
      ((winByte win (6 * m / 8) ++ winByte win (6 * m / 8 + 1) : BitVec 16) >>> (10 - 6 * m % 8)).setWidth 6 := by
  apply BitVec.eq_of_getLsbD_eq
  intro t ht
  rw [group_bit win ht, BitVec.getLsbD_setWidth, decide_eq_true ht, Bool.true_and, BitVec.getLsbD_ushiftRight,
    BitVec.getLsbD_append]
  by_cases hfirst : 6 * m % 8 + (5 - t) < 8
  · have hq : (6 * m + (5 - t)) / 8 = 6 * m / 8 := by omega
    have hb : 7 - (6 * m + (5 - t)) % 8 = 10 - 6 * m % 8 + t - 8 := by omega
    rw [if_neg (by omega), hq, hb]
  · have hq : (6 * m + (5 - t)) / 8 = 6 * m / 8 + 1 := by omega
    have hb : 7 - (6 * m + (5 - t)) % 8 = 10 - 6 * m % 8 + t := by omega
    rw [if_pos (by omega), hq, hb]

/-- Byte `m` of a block, by its one index. -/
theorem getD_encblk_of_lt (tbl : AlphaTbl) (win : List Byte) {m : Nat} (hm : m < 32) :
    (encblk tbl win).getD m 0 = mapByte tbl (extr (loadw win (m / 8)) (m % 8)) := by
  rw [← getD_encblk tbl win (by omega) (by omega), Nat.div_add_mod]

@[simp] theorem length_encblkFlat (tbl : AlphaTbl) (win : List Byte) : (encblkFlat tbl win).length = 32 := by
  simp [encblkFlat]

theorem getD_encblkFlat (tbl : AlphaTbl) (win : List Byte) {m : Nat} (hm : m < 32) :
    (encblkFlat tbl win).getD m 0 = mapByte tbl ((flatString win).extractLsb' (186 - 6 * m) 6) := by
  simp [encblkFlat, List.getD_eq_getElem?_getD, List.getElem?_range hm]

theorem encblk_eq_encblkFlat (tbl : AlphaTbl) (win : List Byte) : encblk tbl win = encblkFlat tbl win := by
  refine list32_ext (length_encblk _ _) (length_encblkFlat _ _) fun i j hi hj => ?_
  have hm : 8 * i + j < 32 := by omega
  rw [getD_encblk_of_lt _ _ hm, getD_encblkFlat _ _ hm, group_eq_flat _ hm]

/-- Settles O34: the whole string, each byte by itself, and the 24 bytes a block depends on. -/
theorem blockIsFlatRegrouping : Obligations.BlockIsFlatRegrouping := by
  refine ⟨encblk_eq_encblkFlat, fun tbl win m hm => ?_, fun tbl win x y hlen => encblk_congr fun k hk => ?_⟩
  · rw [getD_encblk_of_lt _ _ hm, group_eq_of_bytes]; rfl
  · exact List.getD_append _ _ _ _ (by omega)

end Sys2Proof.Machine
end

section
/-! What a RUN reads ahead has no influence (R72, R88): each of its blocks depends on the 24 bytes it consumes. -/

namespace Sys2Proof.Machine

/-- `s` over another input space. -/
abbrev State.withIn (s : State) (m : Memory) : State := { s with inMem := m }

/-- A block depends on the 24 input bytes it consumes, not on the two it reads ahead. -/
theorem blockStep_withIn {s : State} {m : Memory} (h : ∀ a, a < s.ioff + 24 → m.read a = s.inMem.read a) :
    blockStep (s.withIn m) = (blockStep s).withIn m := by
  have hblock : encblk s.alphaTbl (inputWindow (s.withIn m)) = encblk s.alphaTbl (inputWindow s) := encblk_congr fun k hk => by
    rw [winByte_inputWindow _ (by omega), winByte_inputWindow _ (by omega)]
    exact h (s.ioff + k) (by omega)
  simp only [blockStep, blockWrite, advance, hblock]

theorem blockSteps_withIn (k : Nat) {s : State} {m : Memory} (h : ∀ a, a < s.ioff + 24 * k → m.read a = s.inMem.read a) :
    blockSteps k (s.withIn m) = (blockSteps k s).withIn m := by
  induction k generalizing s with
  | zero => rfl
  | succ k ih =>
    rw [blockSteps, blockSteps, blockStep_withIn fun a ha => h a (by omega)]
    exact ih fun a ha => h a (by rw [blockStep_ioff] at ha; omega)

/-- Settles O50: a RUN is `blocksLeft` blocks, which consume exactly the bytes below the final `IOFF`. -/
theorem remainderBytesUnused : Obligations.RemainderBytesUnused := by
  intro s t m hrun hm
  rw [exec_run] at hrun
  cases hrun
  rw [respond_ioff, blockSteps_ioff] at hm
  rw [exec_run]
  congr 1
  exact congrArg (respond false) (blockSteps_withIn (blocksLeft s) hm)

end Sys2Proof.Machine
end

section
/-! The iterator: what INIT and REM answer (R80, R88), and the invariant of the cursors over every step (R86). -/

namespace Sys2Proof.Machine

/-- The four registers as INIT sets them, everything else as in `s` (R80). -/
abbrev State.started (s : State) (a b : Nat) : State := { s with lenIn := a, lenOut := b, ioff := 0, ooff := 0 }

theorem exh_started (s : State) (a b : Nat) : exh (s.started a b) = decide (a < 26 ∨ b < 32) := exh_eq_decide _

theorem cursorInv_of_start {s : State} (hi : s.ioff = 0) (ho : s.ooff = 0) : CursorInv s :=
  ⟨0, hi, ho, by omega, by omega, fun h => absurd h (by decide)⟩

/-- `n` of the blocks that are left keep the invariant: the last of them leaves the two bytes it read ahead (R86). -/
theorem cursorInv_of_blocks {s t : State} {n : Nat} (hs : CursorInv s) (hn : n ≤ blocksLeft s) (hin : t.lenIn = s.lenIn)
    (hout : t.lenOut = s.lenOut) (hi : t.ioff = s.ioff + 24 * n) (ho : t.ooff = s.ooff + 32 * n) : CursorInv t := by
  obtain ⟨k, hik, hok, hle, hle', hahead⟩ := hs
  rw [blocksLeft_eq] at hn
  exact ⟨k + n, by omega, by omega, by omega, by omega, by omega⟩

theorem step_keeps_cursorInv {s t : State} (hs : CursorInv s) (h : step s = .next t) : CursorInv t := by
  cases step_regs h with
  | init _ _ _ hi ho => exact cursorInv_of_start hi ho
  | blocks n hn hin hout hi ho => exact cursorInv_of_blocks hs hn hin hout hi ho
  | reset _ _ _ hi ho => exact cursorInv_of_start hi ho

/-- Settles O15: reset and INIT start with no block done, a step encodes blocks that are left, and a window ends inside its buffer. -/
theorem cursorInvariant : Obligations.CursorInvariant := by
  obtain ⟨hcursor, hfit, -⟩ := invariantAtReset
  refine ⟨⟨hcursor, hfit⟩, fun a b s t hwf h => ?_, fun s t hs hsfit h => ?_, fun s _ hsfit havail => ?_⟩
  · obtain ⟨ha, hb⟩ := (wellFormed_init a b).1 hwf
    rw [exec_init] at h
    cases h
    exact ⟨cursorInv_of_start rfl rfl, ha, hb, fitsPort_zero, fitsPort_zero⟩
  · exact ⟨step_keeps_cursorInv hs h, step_keeps_regsFit hsfit h⟩
  · obtain ⟨hin, hout, -, -⟩ := hsfit
    obtain ⟨hle, hle'⟩ := (avail_iff s).1 havail
    exact ⟨fitsPort_of_le hle hin, fitsPort_of_le hle' hout⟩

/-- Settles O1: the response is the record of the started iterator. -/
theorem initConstructsIterator : Obligations.InitConstructsIterator := by
  refine ⟨fun a b s => ?_, decode_init⟩
  rw [exec_init, respond, responseOf, exh_started]
  rfl

/-- Settles O4: REM is the response alone. -/
theorem remReportsRemainders : Obligations.RemReportsRemainders := ⟨exec_rem, decode_rem⟩

/-- Settles O7: both commands set registers and the response only. -/
theorem initRemFrame : Obligations.InitRemFrame := by
  refine ⟨fun a b s t h => ?_, fun s t h => ?_⟩
  · rw [exec_init] at h
    cases h
    exact ⟨fun _ => rfl, fun _ => rfl, rfl, rfl, rfl⟩
  · rw [exec_rem] at h
    cases h
    exact ⟨fun _ => rfl, fun _ => rfl, rfl, rfl, rfl, rfl, rfl, rfl, rfl⟩

end Sys2Proof.Machine
end

section
/-! Sequences of commands: those that only answer (R82, R89), and STEPs after an INIT (R90). -/

namespace Sys2Proof.Machine

theorem execAll_cons {i : Instr} {s t : State} (h : exec i s = .next t) (is : List Instr) :
    execAll (i :: is) s = execAll is t := by
  simp only [execAll, h]

/-- Commands that each answer the state they start from answer it together. -/
theorem execAll_of_fixed {is : List Instr} {s : State} (h : ∀ i ∈ is, exec i s = .next s) : execAll is s = .next s := by
  induction is with
  | nil => rfl
  | cons i is ih =>
    rw [execAll_cons (h i List.mem_cons_self)]
    exact ih fun j hj => h j (List.mem_cons_of_mem _ hj)

/-- An exhausted iterator that has just answered answers the same to every STEP, RUN and REM. -/
theorem execAll_respond_of_exh {is : List Instr} {s : State} (h : exh s = true)
    (his : ∀ i ∈ is, i = .step ∨ i = .run ∨ i = .rem) : execAll is (respond false s) = .next (respond false s) :=
  execAll_of_fixed fun i hi => exec_of_exh (s := respond false s) h (his i hi)

/-- Settles O45: the first command answers, and the answer is the same for all that follow. -/
theorem remaindersAreIdempotent : Obligations.RemaindersAreIdempotent := by
  refine ⟨fun s n => ?_, fun s i is h hcmds => ?_⟩
  · rw [List.replicate_succ, execAll_cons (exec_rem s)]
    exact execAll_of_fixed fun i hi => (List.eq_of_mem_replicate hi) ▸ exec_rem (respond false s)
  · rw [execAll_cons (exec_of_exh h (hcmds i List.mem_cons_self))]
    exact execAll_respond_of_exh h fun j hj => hcmds j (List.mem_cons_of_mem _ hj)

/-- Settles O44: the iterator that INIT constructs is exhausted from the start. -/
theorem shortBuffersYieldNothing : Obligations.ShortBuffersYieldNothing := by
  intro a b is s hshort hcmds
  have hexh : exh (s.started a b) = true := by rw [exh_started, decide_eq_true hshort]
  rw [execAll_cons (exec_init a b s), execAll_respond_of_exh hexh hcmds, respond, responseOf, hexh]
  rfl

/-- The command after a sequence. -/
theorem execAll_concat {is : List Instr} {s t : State} (h : execAll is s = .next t) (i : Instr) :
    execAll (is ++ [i]) s = exec i t := by
  induction is generalizing s with
  | nil =>
    obtain ⟨u, hu⟩ := exec_completes i t
    cases h
    rw [List.nil_append, execAll_cons hu, hu]
    rfl
  | cons j is ih =>
    obtain ⟨u, hu⟩ := exec_completes j s
    rw [execAll_cons hu] at h
    rw [List.cons_append, execAll_cons hu, ih h]

/-- A response on the ports has no influence on the blocks, and the next response replaces it. -/
theorem respond_blockSteps_setRsp (y : Bool) (k : Nat) (s : State) (r : Option Response) :
    respond y (blockSteps k { s with rsp := r }) = respond y (blockSteps k s) := by
  induction k generalizing s with
  | zero => rfl
  | succ k ih => exact ih (blockStep s)

/-- A response on the ports has no influence on a command. -/
theorem exec_respond (i : Instr) (y : Bool) (s : State) : exec i (respond y s) = exec i s := by
  cases i with
  | init a b => rfl
  | step => rw [exec_step, exec_step]; rfl
  | run =>
    rw [exec_run, exec_run]
    exact congrArg Host.Outcome.next (respond_blockSteps_setRsp false (blocksLeft s) s _)
  | rem => rfl

/-- After some of the blocks that are left, a window is there exactly if one is left still (R81, R90). -/
theorem avail_blockSteps {k : Nat} {s : State} (hk : k ≤ blocksLeft s) : avail (blockSteps k s) = decide (k < blocksLeft s) := by
  rw [Bool.eq_iff_iff, avail_iff, decide_eq_true_iff, blockSteps_lenIn, blockSteps_lenOut, blockSteps_ioff, blockSteps_ooff]
  rw [blocksLeft_eq] at hk ⊢
  omega

/-- One more STEP is one more block as long as blocks are left (R120). -/
theorem exec_step_blockSteps (k : Nat) (s : State) :
    exec .step (blockSteps (min k (blocksLeft s)) s) =
      .next (respond (decide (k < blocksLeft s)) (blockSteps (min (k + 1) (blocksLeft s)) s)) := by
  rw [exec_step, avail_blockSteps (Nat.min_le_right _ _)]
  rcases Nat.lt_or_ge k (blocksLeft s) with hlt | hge
  · rw [Nat.min_eq_left (Nat.le_of_lt hlt), Nat.min_eq_left hlt, blockSteps_add k 1, decide_eq_true hlt]
    rfl
  · rw [Nat.min_eq_right hge, Nat.min_eq_right (Nat.le_succ_of_le hge), decide_eq_false (Nat.not_lt.2 hge),
      decide_eq_false (Nat.lt_irrefl _)]
    rfl

/-- STEPs encode a block each as long as blocks are left; the last response says whether the last STEP did (R90, R120). -/
theorem execAll_steps (k : Nat) (s : State) :
    execAll (List.replicate k .step) (respond false s) =
      .next (respond (decide (0 < k) && decide (k ≤ blocksLeft s)) (blockSteps (min k (blocksLeft s)) s)) := by
  induction k with
  | zero => rw [Nat.zero_min]; rfl
  | succ k ih =>
    rw [List.replicate_succ', execAll_concat ih, exec_respond, exec_step_blockSteps, decide_eq_true k.succ_pos, Bool.true_and]
    rfl

/-- Settles O40: an INIT leaves `blockCount a b` blocks for the STEPs after it. -/
theorem numberOfWindowPairs : Obligations.NumberOfWindowPairs := by
  refine ⟨fun a b k s => ⟨_, (execAll_cons (exec_init a b s) _).trans (execAll_steps k (s.started a b)), ?_, ?_, ?_, _, rfl, rfl⟩,
    fun a => ?_⟩
  · rw [respond_ioff, blockSteps_ioff, Nat.zero_add]; rfl
  · rw [respond_ooff, blockSteps_ooff, Nat.zero_add]; rfl
  · rw [exh_respond, exh_iff, blockSteps_lenIn, blockSteps_lenOut, blockSteps_ioff, blockSteps_ooff, blocksLeft_eq]
    simp only
    omega
  · simp only [blocksIn]
    omega

end Sys2Proof.Machine
end

section
/-! The sizes an encode call leaves (R91), and the capacity that encodes every full block (R92, R163). -/

namespace Sys2Proof.Machine

/-- ENCODE is as many blocks as the two lengths allow, from the started iterator (R126). -/
theorem execAll_encodeCall (a b : Nat) (s : State) :
    execAll (encodeCall a b) s = .next (respond false (blockSteps (blockCount a b) (s.started a b))) := by
  rw [encodeCall, execAll_cons (exec_init a b s), execAll_cons ((exec_respond _ _ _).trans (exec_run _))]
  rfl

/-- Settles O41: the side with fewer windows limits, and its remainder is what no window of it covers. -/
theorem remainderSizes : Obligations.RemainderSizes := by
  intro a b s
  refine ⟨_, _, execAll_encodeCall a b s, rfl, ?_⟩
  simp only [responseOf, blockSteps_lenIn, blockSteps_lenOut, blockSteps_ioff, blockSteps_ooff, blockCount, blocksIn, blocksOut]
  refine ⟨fun hin => ?_, fun hout => ?_⟩
  · rw [Nat.min_eq_left hin]
    omega
  · rw [Nat.min_eq_right (Nat.le_of_lt hout)]
    omega

/-- Settles O43: the input cursor stops at `24 * blockCount a b`, which is every full block exactly if the output has room for them. -/
theorem capacityContract : Obligations.CapacityContract := by
  refine ⟨fun a b h => ?_, fun a b s => ⟨_, execAll_encodeCall a b s, ?_⟩⟩
  · rw [CapacityOk]; omega
  · rw [respond_ioff, respond_lenIn, blockSteps_ioff, blockSteps_lenIn, CapacityOk, blockCount, blocksIn, blocksOut]
    simp only
    omega

end Sys2Proof.Machine
end

section
/-! The accesses of a command (R40, R87): those of the blocks it encodes, in closed form, their bounds, and what they say about `OUT`. -/

namespace Sys2Proof.Machine

/-- How many blocks a command encodes (R120, R123); INIT and REM encode none. -/
def blocksEncoded (i : Instr) (s : State) : Nat :=
  match i with
  | .init _ _ => 0
  | .step => if avail s then 1 else 0
  | .run => blocksLeft s
  | .rem => 0

theorem blocksEncoded_step (s : State) : blocksEncoded .step s = if avail s then 1 else 0 := rfl

theorem blocksEncoded_le (i : Instr) (s : State) : blocksEncoded i s ≤ blocksLeft s := by
  cases i with
  | init a b => exact Nat.zero_le _
  | step =>
    rw [blocksEncoded_step]
    split
    · next havail => exact blocksLeft_pos.2 havail
    · exact Nat.zero_le _
  | run => exact Nat.le_refl _
  | rem => exact Nat.zero_le _

/-- Where blocks are encoded, each has its whole input and output window inside the buffers (R86, R87). -/
theorem windows_inside {i : Instr} {s : State} (h : 0 < blocksEncoded i s) :
    s.ioff + 24 * blocksEncoded i s + 2 ≤ s.lenIn ∧ s.ooff + 32 * blocksEncoded i s ≤ s.lenOut := by
  have hle := blocksEncoded_le i s
  rw [blocksLeft_eq] at hle
  omega

/-- A command is an INIT, or in every state the blocks it encodes and its response. -/
theorem init_or_exec_eq_blockSteps (i : Instr) :
    (∃ a b, i = .init a b) ∨
      ∀ s, exec i s = .next (respond (decide (i = .step) && avail s) (blockSteps (blocksEncoded i s) s)) := by
  cases i with
  | init a b => exact .inl ⟨a, b, rfl⟩
  | step =>
    refine .inr fun s => ?_
    rw [exec_step, blocksEncoded_step]
    cases avail s <;> rfl
  | run => exact .inr exec_run
  | rem => exact .inr exec_rem

theorem runAccesses_eq (n : Nat) (s : State) (h : blocksLeft s ≤ n) :
    runAccesses n s = (List.range (blocksLeft s)).flatMap fun k => blockAccesses (blockSteps k s) := by
  induction n generalizing s with
  | zero => rw [Nat.le_zero.1 h]; rfl
  | succ n ih =>
    cases ha : avail s with
    | true =>
      have hleft := blocksLeft_blockStep ha
      rw [runAccesses, if_pos ha, ih _ (by omega), hleft, List.range_succ_eq_map, List.flatMap_cons, List.flatMap_map]
      rfl
    | false => rw [runAccesses, ha, blocksLeft_eq_zero ha]; rfl

/-- The accesses of a command are those of the blocks it encodes, one block after the other (R40). -/
theorem accesses_eq (i : Instr) (s : State) :
    accesses i s = (List.range (blocksEncoded i s)).flatMap fun k => blockAccesses (blockSteps k s) := by
  cases i with
  | init a b => rfl
  | step =>
    rw [blocksEncoded_step, accesses]
    cases avail s
    · rfl
    · exact (List.append_nil _).symm
  | run => exact runAccesses_eq _ s (blocksLeft_le s)
  | rem => rfl

theorem mem_accesses {i : Instr} {s : State} {x : Access} :
    x ∈ accesses i s ↔ ∃ k < blocksEncoded i s, x ∈ blockAccesses (blockSteps k s) := by
  simp only [accesses_eq, List.mem_flatMap, List.mem_range]

theorem readIn_mem_blockAccesses {s : State} {off n : Nat} :
    .readIn off n ∈ blockAccesses s ↔ ∃ w < 4, off = s.ioff + 6 * w ∧ n = 8 := by
  simp [blockAccesses]

theorem readAlpha_mem_blockAccesses {s : State} {v : Group} :
    .readAlpha v ∈ blockAccesses s ↔ ∃ w < 4, ∃ j < 8, v = extr (loadw (inputWindow s) w) j := by
  simp [blockAccesses]

theorem writeOut_mem_blockAccesses {s : State} {off : Nat} :
    .writeOut off ∈ blockAccesses s ↔ s.ooff ≤ off ∧ off < s.ooff + 32 := by
  have hgroups : .writeOut off ∈ blockAccesses s ↔ ∃ w < 4, ∃ j < 8, off = s.ooff + 8 * w + j := by simp [blockAccesses]
  rw [hgroups]
  constructor
  · rintro ⟨w, hw, j, hj, rfl⟩
    omega
  · rintro ⟨hge, hlt⟩
    exact ⟨(off - s.ooff) / 8, by omega, (off - s.ooff) % 8, by omega, by omega⟩

/-- The reads of `IN`: words of 8 bytes, 6 bytes apart, 4 to a block (R68, R128). -/
theorem readIn_mem_accesses {i : Instr} {s : State} {off n : Nat} :
    .readIn off n ∈ accesses i s ↔ ∃ q < 4 * blocksEncoded i s, off = s.ioff + 6 * q ∧ n = 8 := by
  simp only [mem_accesses, readIn_mem_blockAccesses, blockSteps_ioff]
  constructor
  · rintro ⟨k, hk, w, hw, rfl, rfl⟩
    exact ⟨4 * k + w, by omega, by omega, rfl⟩
  · rintro ⟨q, hq, rfl, rfl⟩
    exact ⟨q / 4, by omega, q % 4, by omega, by omega, rfl⟩

/-- The writes of `OUT`: every byte of the output windows of the blocks (R108, R128). -/
theorem writeOut_mem_accesses {i : Instr} {s : State} {off : Nat} :
    .writeOut off ∈ accesses i s ↔ s.ooff ≤ off ∧ off < s.ooff + 32 * blocksEncoded i s := by
  simp only [mem_accesses, writeOut_mem_blockAccesses, blockSteps_ooff]
  constructor
  · rintro ⟨k, hk, hge, hlt⟩
    omega
  · rintro ⟨hge, hlt⟩
    exact ⟨(off - s.ooff) / 32, by omega, by omega, by omega⟩

theorem readIn_inside {i : Instr} {s : State} {off n : Nat} (h : .readIn off n ∈ accesses i s) : off + n ≤ s.lenIn := by
  obtain ⟨q, hq, rfl, rfl⟩ := readIn_mem_accesses.1 h
  have hwin := windows_inside (i := i) (s := s) (by omega)
  omega

theorem writeOut_inside {i : Instr} {s : State} {off : Nat} (h : .writeOut off ∈ accesses i s) : off < s.lenOut := by
  obtain ⟨hge, hlt⟩ := writeOut_mem_accesses.1 h
  have hwin := windows_inside (i := i) (s := s) (by omega)
  omega

theorem blocksEncoded_step_le (s : State) : blocksEncoded .step s ≤ 1 := by
  rw [blocksEncoded_step]
  split <;> decide

/-- Settles O46, by the closed forms of the reads and the writes; a STEP encodes at most one block. -/
theorem accessesStayInside : Obligations.AccessesStayInside := by
  refine ⟨fun i s x hx => ?_, fun s off n h => ?_, fun s off h => ?_⟩
  · cases x with
    | readIn off n => exact readIn_inside hx
    | readAlpha v => exact v.isLt
    | writeOut off => exact writeOut_inside hx
  · obtain ⟨q, hq, rfl, rfl⟩ := readIn_mem_accesses.1 h
    have hone := blocksEncoded_step_le s
    have hwin := windows_inside (i := .step) (s := s) (by omega)
    omega
  · obtain ⟨hge, hlt⟩ := writeOut_mem_accesses.1 h
    have hone := blocksEncoded_step_le s
    have hwin := windows_inside (i := .step) (s := s) (by omega)
    omega

/-- A byte of `OUT` that no access of the command writes reads as before (R40, R48). -/
theorem read_outMem_of_not_written {i : Instr} {s t : State} {x : Nat} (h : exec i s = .next t)
    (hx : .writeOut x ∉ accesses i s) : t.outMem.read x = s.outMem.read x := by
  rw [writeOut_mem_accesses] at hx
  rcases init_or_exec_eq_blockSteps i with ⟨a, b, rfl⟩ | hblocks
  · rw [exec_init] at h
    cases h
    rfl
  · rw [hblocks] at h
    cases h
    rw [respond_outMem, read_blockSteps, if_neg hx]

/-- Settles O48: what is written is inside the buffer and from the cursor up, so no other byte has an access that writes it. -/
theorem outputWritesBounded : Obligations.OutputWritesBounded := by
  refine fun i s t h => ⟨fun a ha => ?_, fun a ha => ?_, fun a => read_outMem_of_not_written h⟩
  · exact read_outMem_of_not_written h fun hw => absurd (writeOut_inside hw) (Nat.not_lt.2 ha)
  · exact read_outMem_of_not_written h fun hw => absurd (writeOut_mem_accesses.1 hw).1 (Nat.not_le.2 ha)

end Sys2Proof.Machine
end

section
/-! The inputs of a command are what its accesses read (R40, R87): another `IN` and another table that agree there make no difference. -/

namespace Sys2Proof.Machine

/-- `s` over another input space and another alphabet table. -/
abbrev State.withInputs (s : State) (m : Memory) (tbl : AlphaTbl) : State := { s with inMem := m, alphaTbl := tbl }

/-- `m` and `tbl` agree with the inputs of `s` wherever these accesses read. -/
def ReadsAgree (s : State) (m : Memory) (tbl : AlphaTbl) (xs : List Access) : Prop :=
  (∀ off n, .readIn off n ∈ xs → ∀ k, k < n → m.read (off + k) = s.inMem.read (off + k)) ∧
  (∀ v, .readAlpha v ∈ xs → mapByte tbl v = mapByte s.alphaTbl v)

theorem ReadsAgree.mono {s : State} {m : Memory} {tbl : AlphaTbl} {xs ys : List Access} (h : ReadsAgree s m tbl xs)
    (hsub : ∀ x ∈ ys, x ∈ xs) : ReadsAgree s m tbl ys := by
  obtain ⟨hin, halpha⟩ := h
  exact ⟨fun off n hmem => hin off n (hsub _ hmem), fun v hmem => halpha v (hsub _ hmem)⟩

/-- The four word reads of a block cover its window (R68). -/
theorem inputWindow_withInputs {s : State} {m : Memory} {tbl : AlphaTbl} (h : ReadsAgree s m tbl (blockAccesses s)) :
    inputWindow (s.withInputs m tbl) = inputWindow s := by
  obtain ⟨hin, -⟩ := h
  refine Memory.readBytes_congr fun x hge hlt => ?_
  simp only [Config.ICS] at hge hlt
  have hword : ∃ w < 4, ∃ k < 8, x = s.ioff + 6 * w + k :=
    ⟨min ((x - s.ioff) / 6) 3, by omega, x - s.ioff - 6 * min ((x - s.ioff) / 6) 3, by omega, by omega⟩
  obtain ⟨w, hw, k, hk, rfl⟩ := hword
  exact hin _ 8 (readIn_mem_blockAccesses.2 ⟨w, hw, rfl, rfl⟩) k hk

/-- A block depends on its window and on the entries of the table that its groups select (R105, R107). -/
theorem blockStep_withInputs {s : State} {m : Memory} {tbl : AlphaTbl} (h : ReadsAgree s m tbl (blockAccesses s)) :
    blockStep (s.withInputs m tbl) = (blockStep s).withInputs m tbl := by
  have hblock : encblk tbl (inputWindow (s.withInputs m tbl)) = encblk s.alphaTbl (inputWindow s) := by
    rw [inputWindow_withInputs h]
    obtain ⟨-, halpha⟩ := h
    refine list32_ext (length_encblk _ _) (length_encblk _ _) fun i j hi hj => ?_
    rw [getD_encblk _ _ hi hj, getD_encblk _ _ hi hj]
    exact halpha _ (readAlpha_mem_blockAccesses.2 ⟨i, hi, j, hj, rfl⟩)
  simp only [blockStep, blockWrite, advance, hblock]

theorem blockSteps_withInputs {n : Nat} {s : State} {m : Memory} {tbl : AlphaTbl}
    (h : ∀ k < n, ReadsAgree s m tbl (blockAccesses (blockSteps k s))) :
    blockSteps n (s.withInputs m tbl) = (blockSteps n s).withInputs m tbl := by
  induction n generalizing s with
  | zero => rfl
  | succ n ih =>
    rw [blockSteps, blockSteps, blockStep_withInputs (h 0 n.succ_pos)]
    exact ih fun k hk => h (k + 1) (Nat.succ_lt_succ hk)

/-- What no read of a command's accesses covers has no influence on it. -/
theorem exec_withInputs {i : Instr} {s t : State} {m : Memory} {tbl : AlphaTbl} (hagree : ReadsAgree s m tbl (accesses i s))
    (h : exec i s = .next t) : exec i (s.withInputs m tbl) = .next (t.withInputs m tbl) := by
  rcases init_or_exec_eq_blockSteps i with ⟨a, b, rfl⟩ | hblocks
  · rw [exec_init] at h
    cases h
    rfl
  · have hsame : blocksEncoded i (s.withInputs m tbl) = blocksEncoded i s := by cases i <;> rfl
    rw [hblocks] at h ⊢
    cases h
    rw [hsame, blockSteps_withInputs fun k hk => hagree.mono fun x hx => mem_accesses.2 ⟨k, hk, hx⟩]
    rfl

/-- Settles O49: a read of `IN` is below `LEN_IN`, so an input that differs only beyond it agrees on every read. -/
theorem inputBeyondLengthIrrelevant : Obligations.InputBeyondLengthIrrelevant := by
  refine ⟨fun i s t m hm h => ?_, fun i s t m tbl hin halpha h => exec_withInputs ⟨hin, halpha⟩ h⟩
  have hagree : ReadsAgree s m s.alphaTbl (accesses i s) :=
    ⟨fun off n hread k hk => hm _ (by have := readIn_inside hread; omega), fun _ _ => rfl⟩
  obtain ⟨-, halpha, -, -⟩ := exec_frame h
  have hsame : t.withInputs m s.alphaTbl = { t with inMem := m } := by rw [← halpha]
  rw [← hsame]
  exact exec_withInputs hagree h

end Sys2Proof.Machine
end

section
/-! Words and groups: a word as a number (R101) and bit by bit (R100), a group as a slice of it (R102, R103) and by its mask (R104). -/

namespace Sys2Proof.Machine

theorem toNat_append_byte {n : Nat} (x : BitVec n) (b : Byte) : (x ++ b).toNat = x.toNat * 2 ^ 8 + b.toNat := by
  rw [BitVec.toNat_append, ← Nat.shiftLeft_add_eq_or_of_lt b.isLt, Nat.shiftLeft_eq]

/-- Settles O25: `be64` appends one byte after the other, and each append shifts the ones before it by 8 bits. -/
theorem be64IsTheSum : Obligations.Be64IsTheSum := by
  refine ⟨fun b0 b1 b2 b3 b4 b5 b6 b7 => ⟨?_, ?_⟩, by decide⟩
  · simp only [be64, toNat_append_byte]
    ring
  · exact Nat.le_sub_one_of_lt (BitVec.isLt _)

/-- Every bit of a word: bit `t` is in window byte `7 - t div 8` of its eight. -/
theorem loadw_getLsbD (win : List Byte) (i : Nat) {t : Nat} (ht : t < 64) :
    (loadw win i).getLsbD t = (winByte win (6 * i + (7 - t / 8))).getLsbD (t % 8) := by
  have hbit : t % 8 < 8 := by omega
  have hpos : 56 - 8 * (7 - t / 8) + t % 8 = t := by omega
  rw [← loadw_byte win i (k := 7 - t / 8) (by omega), BitVec.getLsbD_extractLsb', decide_eq_true hbit, Bool.true_and, hpos]

/-- The last two bytes of a word are the first two of the next (R100): `6i + 6 + k` is `6(i+1) + k`. -/
theorem loadw_overlap (win : List Byte) (i : Nat) :
    (loadw win i).extractLsb' 0 16 = (loadw win (i + 1)).extractLsb' 48 16 := by
  apply BitVec.eq_of_getLsbD_eq
  intro t ht
  have hbyte : 6 * i + (7 - (0 + t) / 8) = 6 * (i + 1) + (7 - (48 + t) / 8) := by omega
  have hbit : (0 + t) % 8 = (48 + t) % 8 := by omega
  rw [BitVec.getLsbD_extractLsb', BitVec.getLsbD_extractLsb', loadw_getLsbD _ _ (by omega), loadw_getLsbD _ _ (by omega),
    hbyte, hbit]

/-- Settles O27: the shared bytes of two words, and the example. -/
theorem consecutiveWordsOverlap : Obligations.ConsecutiveWordsOverlap := ⟨loadw_overlap, by decide⟩

theorem extr_eq_slice (w : Word) {j : Nat} (hj : j < 8) : extr w j = w.extractLsb' (58 - 6 * j) 6 := by
  apply BitVec.eq_of_getLsbD_eq
  intro t ht
  rw [extr_bit w hj ht, BitVec.getLsbD_extractLsb', decide_eq_true ht, Bool.true_and]

/-- Settles O28: the formula is the definition, the slice is `extr_eq_slice`. -/
theorem extrIsTheSlice : Obligations.ExtrIsTheSlice :=
  ⟨fun w _ hj => ⟨rfl, extr_eq_slice w hj⟩, by decide, by decide⟩

/-- The mask leaves a number below `2^6` (R103 a). -/
theorem toNat_mask_le {n : Nat} (x : BitVec n) : (x &&& 0x3F#n).toNat ≤ 63 := by
  rw [BitVec.toNat_and, BitVec.toNat_ofNat]
  exact le_trans Nat.and_le_right (Nat.mod_le _ _)

theorem toNat_extr (w : Word) (j : Nat) : (extr w j).toNat = ((w >>> extrShift j) &&& 0x3F#64).toNat := by
  rw [extr, BitVec.toNat_setWidth]
  exact Nat.mod_eq_of_lt (Nat.lt_succ_of_le (toNat_mask_le _))

/-- Neighbouring groups are neighbouring slices, so the eight in order make up one slice of 48 bits (R103 d). -/
theorem groups_eq_upper_bits (w : Word) :
    extr w 0 ++ extr w 1 ++ extr w 2 ++ extr w 3 ++ extr w 4 ++ extr w 5 ++ extr w 6 ++ extr w 7 = w.extractLsb' 16 48 := by
  simp (disch := decide) only [extr_eq_slice]
  iterate 7 rw [BitVec.extractLsb'_append_extractLsb'_eq_extractLsb' (by rfl)]

/-- Settles O29: the mask's bound, the shifts, and the eight slices, all of them at or above bit 16. -/
theorem extrProperties : Obligations.ExtrProperties := by
  refine ⟨fun w j => ⟨toNat_mask_le _, toNat_extr w j⟩, fun j hj => ?_, fun w w' j hj h => ?_, fun w => (groups_eq_upper_bits w).symm⟩
  · simp only [extrShift, Config.WBITS, Config.GBITS]
    omega
  · refine extr_congr hj fun t hlo hhi => ?_
    have hbit := congrArg (·.getLsbD (t - 16)) h
    have hlt : t - 16 < 48 := by omega
    simpa only [BitVec.getLsbD_extractLsb', decide_eq_true hlt, Bool.true_and, Nat.add_sub_cancel' hlo] using hbit

/-- Cut to 6 bits, a value is the same with and without the mask `0x3F`. -/
theorem setWidth_mask {n : Nat} (hn : 6 ≤ n) (x : BitVec n) : (x &&& 0x3F#n).setWidth 6 = x.setWidth 6 := by
  have hmask : 63 < 2 ^ n := lt_of_lt_of_le (by decide) (Nat.pow_le_pow_right (by decide) hn)
  apply BitVec.eq_of_toNat_eq
  rw [BitVec.toNat_setWidth, BitVec.toNat_setWidth, BitVec.toNat_and, BitVec.toNat_ofNat, Nat.mod_eq_of_lt hmask,
    Nat.and_two_pow_sub_one_eq_mod _ 6, Nat.mod_mod]

theorem u6_eq_setWidth (b : Byte) : u6 b = b.setWidth 6 := setWidth_mask (by decide) b

theorem extr_eq_setWidth (w : Word) (j : Nat) : extr w j = (w >>> extrShift j).setWidth 6 := setWidth_mask (by decide) _

/-- Settles O30: both values are their argument cut to 6 bits, and cutting to 8 bits first changes nothing. -/
theorem groupIsLowSixBits : Obligations.GroupIsLowSixBits := by
  refine ⟨fun b => ⟨?_, ?_⟩, fun w j => ?_⟩
  · rw [u6_eq_setWidth, BitVec.setWidth_eq_extractLsb' (by decide)]
  · rw [u6_eq_setWidth, BitVec.toNat_setWidth]
  · rw [u6_eq_setWidth, extr_eq_setWidth, BitVec.setWidth_setWidth_of_le _ (by decide)]

end Sys2Proof.Machine
end

section
/-! One block (R107): the blocks of a constant window, the three-byte law, and the ratio of bytes in to bytes out (R109). -/

namespace Sys2Proof.Machine

/-- A window whose consumed bytes have one bit `b` everywhere has that bit everywhere in every group (R107 b). -/
theorem encblk_fill (tbl : AlphaTbl) {win : List Byte} {b : Bool} (h : ∀ k, k < 24 → winByte win k = BitVec.fill 8 b) :
    encblk tbl win = List.replicate 32 (mapByte tbl (BitVec.fill 6 b)) := by
  refine list32_ext (length_encblk _ _) List.length_replicate fun i j hi hj => ?_
  have hm : 8 * i + j < 32 := by omega
  rw [getD_encblk_of_lt _ _ hm, List.getD_replicate _ hm]
  congr 1
  apply BitVec.eq_of_getLsbD_eq
  intro t ht
  have hbit : 7 - (6 * (8 * i + j) + (5 - t)) % 8 < 8 := by omega
  rw [group_bit win ht, h _ (by omega), BitVec.getLsbD_fill, BitVec.getLsbD_fill, decide_eq_true hbit, decide_eq_true ht]

theorem setWidth_ushiftRight_eq_slice {n : Nat} (x : BitVec n) (k len : Nat) : (x >>> k).setWidth len = x.extractLsb' k len := by
  apply BitVec.eq_of_getLsbD_eq
  intro t ht
  rw [BitVec.getLsbD_setWidth, BitVec.getLsbD_ushiftRight, BitVec.getLsbD_extractLsb']

/-- Group `m` of a block as a slice of two neighbouring bytes. -/
theorem group_eq_slice (win : List Byte) {m q r : Nat} (h : 6 * m = 8 * q + r) (hr : r < 8) :
    extr (loadw win (m / 8)) (m % 8) = (winByte win q ++ winByte win (q + 1)).extractLsb' (10 - r) 6 := by
  have hq : 6 * m / 8 = q := by omega
  have hrem : 6 * m % 8 = r := by omega
  rw [group_eq_of_bytes, setWidth_ushiftRight_eq_slice, hq, hrem]

theorem take_drop_four {l : List Byte} {n : Nat} (h : n + 4 ≤ l.length) :
    (l.drop n).take 4 = [l.getD n 0, l.getD (n + 1) 0, l.getD (n + 2) 0, l.getD (n + 3) 0] := by
  rw [List.drop_eq_getElem_cons (by omega), List.drop_eq_getElem_cons (by omega), List.drop_eq_getElem_cons (by omega),
    List.drop_eq_getElem_cons (by omega)]
  simp (disch := omega) only [List.take_succ_cons, List.take_zero, List.getD_eq_getElem]

/-- The three-byte law (R107 c): the groups `4t .. 4t+3` start at the bits 0, 6, 12 and 18 of the three bytes. The first and the
last slice lie in one byte, the other two go over into the next: the branches of `extractLsb'_append_eq_ite`. -/
theorem encblk_triple (tbl : AlphaTbl) (win : List Byte) {t : Nat} (ht : t < 8) :
    ((encblk tbl win).drop (4 * t)).take 4 =
      encodeTriple tbl (winByte win (3 * t)) (winByte win (3 * t + 1)) (winByte win (3 * t + 2)) := by
  rw [take_drop_four (by rw [length_encblk]; omega), getD_encblk_of_lt _ _ (by omega), getD_encblk_of_lt _ _ (by omega),
    getD_encblk_of_lt _ _ (by omega), getD_encblk_of_lt _ _ (by omega),
    group_eq_slice win (q := 3 * t) (r := 0) (by omega) (by omega),
    group_eq_slice win (q := 3 * t) (r := 6) (by omega) (by omega),
    group_eq_slice win (q := 3 * t + 1) (r := 4) (by omega) (by omega),
    group_eq_slice win (q := 3 * t + 2) (r := 2) (by omega) (by omega)]
  simp only [BitVec.extractLsb'_append_eq_ite]
  rfl

/-- Settles O33, the three-byte law by `encblk_triple` and the constant windows by `encblk_fill`. -/
theorem blockKernel : Obligations.BlockKernel :=
  ⟨fun tbl win => ⟨length_encblk tbl win, fun _ _ => getD_encblk tbl win⟩,
    fun _ _ _ => encblk_congr,
    fun tbl _ => encblk_fill tbl (b := false),
    fun tbl _ => encblk_fill tbl (b := true),
    fun tbl win _ => encblk_triple tbl win⟩

/-- Settles O20: a STEP with a window is one block, and a step encodes whole blocks or sets both cursors to 0. -/
theorem ratioInvariant : Obligations.RatioInvariant := by
  refine ⟨fun s t ha h => ?_, rfl, fun s t hs h => ?_⟩
  · rw [exec_step, if_pos ha] at h
    cases h
    exact ⟨rfl, rfl⟩
  · cases step_regs h with
    | init _ _ _ hi ho => omega
    | blocks n _ _ _ hi ho => omega
    | reset _ _ _ hi ho => omega

end Sys2Proof.Machine
end

section
/-! The standard alphabet (R106): the port built from the list, entry by entry. -/

namespace Sys2Proof.Machine

theorem mapByte_alphaStd (v : Group) : mapByte alphaStd v = alphaStdByte v.toNat := by
  have hv : v.toNat < ((List.range Config.NALPHA).map alphaStdByte).length := by simpa using v.isLt
  rw [alphaStd, mapByte_alphaOfBytes, List.getD_eq_getElem _ _ hv, List.getElem_map, List.getElem_range]

/-- Settles O32: one branch of `alphaStdByte` per range, none of them beyond a byte. -/
theorem standardAlphabetEntries : Obligations.StandardAlphabetEntries := by
  intro v
  simp only [mapByte_alphaStd, alphaStdByte]
  refine ⟨fun h => ?_, fun h h' => ?_, fun h h' => ?_, fun h => ?_, fun h => ?_⟩
  · rw [if_pos (by omega), BitVec.toNat_ofNat, Nat.mod_eq_of_lt (by omega)]
  · rw [if_neg (by omega), if_pos (by omega), BitVec.toNat_ofNat, Nat.mod_eq_of_lt (by omega)]
  · rw [if_neg (by omega), if_neg (by omega), if_pos (by omega), BitVec.toNat_ofNat, Nat.mod_eq_of_lt (by omega)]
  · rw [h]; rfl
  · rw [h]; rfl

end Sys2Proof.Machine
end

section
/-! STEP and RUN (R120, R121, R123): the exact next state of a STEP, the unfolding of RUN, and the frames of both. -/

namespace Sys2Proof.Machine

/-- `AVAIL` as R120 words it. -/
theorem avail_iff_remainders (s : State) : avail s = true ↔ s.lenIn - s.ioff ≥ 26 ∧ s.lenOut - s.ooff ≥ 32 := by
  rw [avail_iff]
  omega

theorem exh_of_remainders {s : State} (h : ¬ (s.lenIn - s.ioff ≥ 26 ∧ s.lenOut - s.ooff ≥ 32)) : exh s = true :=
  exh_of_not_avail (Bool.eq_false_iff.2 (mt (avail_iff_remainders s).1 h))

theorem exec_step_of_avail {s : State} (h : avail s = true) : exec .step s = .next (respond true (blockStep s)) := by
  rw [exec_step, if_pos h]

/-- RUN with a block to do is that block, then RUN (R123). -/
theorem exec_run_of_avail {s : State} (h : avail s = true) : exec .run s = exec .run (blockStep s) := by
  rw [exec_run, exec_run, blocksLeft_blockStep h]
  rfl

/-- Settles O2: with a window the response is the record of the state after the block, without one of an exhausted state. -/
theorem stepEncodesNextBlock : Obligations.StepEncodesNextBlock := by
  refine ⟨fun s h => ?_, fun s h => ?_, decode_step⟩
  · rw [exec_step_of_avail ((avail_iff_remainders s).2 h), respond, responseOf, exh_blockStep]
    rfl
  · have hexh := exh_of_remainders h
    rw [exec_of_exh hexh (.inl rfl), respond, responseOf, hexh]

/-- Settles O3: RUN leaves no block to do, only answers when exhausted, and unfolds by one block. -/
theorem runIsTheWhileLoop : Obligations.RunIsTheWhileLoop := by
  refine ⟨fun s => ?_, fun s h => ?_, fun s h => exec_run_of_avail ((avail_iff_remainders s).2 h), decode_run⟩
  · have hexh := exh_blockSteps s
    refine ⟨_, exec_run s, ?_, ?_⟩
    · rwa [← exh_respond false, exh_eq_decide, decide_eq_true_iff] at hexh
    · rw [respond_rsp, responseOf, hexh]
      rfl
  · exact ⟨_, exec_of_exh (exh_of_remainders h) (.inr (.inl rfl))⟩

/-- Settles O5: a yielding STEP is one block, whose bytes of `OUT` are `read_blockStep`; any other only answers. -/
theorem stepFrame : Obligations.StepFrame := by
  refine fun s t h => ⟨fun ha => ?_, fun ha => ?_⟩
  · rw [exec_step_of_avail ha] at h
    cases h
    refine ⟨fun m hm => ?_, fun a hout => ?_, rfl, rfl, rfl, rfl, rfl, rfl, rfl, rfl⟩
    · rw [respond_outMem, read_blockStep, if_pos (by omega), Nat.add_sub_cancel_left]
      rfl
    · rw [respond_outMem, read_blockStep, if_neg (by omega)]
  · rw [exec_of_exh (exh_of_not_avail ha) (.inl rfl)] at h
    cases h
    rfl

/-- Settles O6: RUN is the blocks that are left, and the bytes of `OUT` after them are `read_blockSteps`. -/
theorem runFrame : Obligations.RunFrame := by
  intro s t h
  rw [exec_run] at h
  cases h
  simp only [← blocksLeft_eq]
  refine ⟨fun a hout => ?_, blockSteps_ioff _ s, blockSteps_ooff _ s, blockSteps_lenIn _ s, blockSteps_lenOut _ s,
    blockSteps_inMem _ s, blockSteps_alphaTbl _ s, blockSteps_script _ s, blockSteps_draws _ s⟩
  rw [respond_outMem, read_blockSteps, if_neg (by omega)]

end Sys2Proof.Machine
end

section
/-! The kernel that works three bytes at a time (R129). -/

namespace Sys2Proof.Machine

/-- Consecutive slices of `k` elements make up the list they are cut from. -/
theorem flatMap_slices_eq_take {α : Type} (l : List α) (k n : Nat) :
    ((List.range n).flatMap fun t => (l.drop (k * t)).take k) = l.take (k * n) := by
  induction n with
  | zero => rfl
  | succ n ih => rw [List.range_succ, List.flatMap_append, ih, List.flatMap_singleton, Nat.mul_succ, List.take_add]

/-- Settles O35: each slice of four bytes of the block is the three-byte law, and the eight slices are the block. -/
theorem tripleKernelSubstitutable : Obligations.TripleKernelSubstitutable := by
  intro tbl win
  calc encblkTriples tbl win
      = (List.range 8).flatMap fun t => ((encblk tbl win).drop (4 * t)).take 4 :=
        List.flatMap_congr fun t ht => (encblk_triple tbl win (List.mem_range.1 ht)).symm
    _ = (encblk tbl win).take 32 := flatMap_slices_eq_take _ 4 8
    _ = encblk tbl win := List.take_of_length_le (length_encblk tbl win).le

end Sys2Proof.Machine
end

section
/-! RUN in closed form (R124), the encode call as a regrouping of its input (R126), and RUN as STEPs followed by REM (R124, R123 b). -/

namespace Sys2Proof.Machine

/-- In a state of the invariant the blocks left are those of the whole call that are not done yet (R90). -/
theorem blocksLeft_of_cursorInv {s : State} (h : CursorInv s) :
    s.ioff / 24 ≤ blockCount s.lenIn s.lenOut ∧ blocksLeft s = blockCount s.lenIn s.lenOut - s.ioff / 24 := by
  obtain ⟨n, hi, ho, hin, hout, hahead⟩ := h
  rw [blocksLeft_eq, blockCount, blocksIn, blocksOut]
  omega

/-- Settles O38: `OUT[32n ..]` lies `n - n0` windows above `OOFF`, and `read_blockSteps` gives its block. -/
theorem runClosedForm : Obligations.RunClosedForm := by
  intro s hs
  obtain ⟨hdone, hleft⟩ := blocksLeft_of_cursorInv hs
  obtain ⟨n0, hi, ho, -⟩ := hs
  refine ⟨hdone, _, exec_run s, ?_, ?_, fun n m hge hlt hm => ?_, fun x hout => ?_⟩
  · rw [respond_ioff, blockSteps_ioff]
    omega
  · rw [respond_ooff, blockSteps_ooff]
    omega
  · have hwindow : s.ioff + 24 * ((32 * n + m - s.ooff) / 32) = 24 * n := by omega
    have hbyte : (32 * n + m - s.ooff) % 32 = m := by omega
    rw [respond_outMem, read_blockSteps, if_pos (by omega), hwindow, hbyte]
  · rw [respond_outMem, read_blockSteps, if_neg (by omega)]

/-- Group `k` of the block whose window starts at `IN[24n]` is group `32n + k` of the continuous view (R124): a window of 24
consumed bytes is exactly 32 groups of 6 bits. -/
theorem group_eq_streamGroup (m : Memory) (n : Nat) {k : Nat} (hk : k < 32) :
    extr (loadw (m.readBytes (24 * n) 26) (k / 8)) (k % 8) = streamGroup m (32 * n + k) := by
  apply BitVec.eq_of_getLsbD_eq
  intro t ht
  have hbyte : 24 * n + (6 * k + (5 - t)) / 8 = (6 * (32 * n + k) + (5 - t)) / 8 := by omega
  have hbit : (6 * k + (5 - t)) % 8 = (6 * (32 * n + k) + (5 - t)) % 8 := by omega
  rw [group_bit _ ht, streamGroup_bit _ _ ht, winByte, Memory.getD_readBytes _ _ _ _ (by omega), streamBit, hbyte, hbit]

/-- Byte `x` of the blocks written one after the other is the entry of group `x` of the continuous view (R124). -/
theorem getD_encblk_eq_streamGroup (tbl : AlphaTbl) (m : Memory) (x : Nat) :
    (encblk tbl (m.readBytes (24 * (x / 32)) 26)).getD (x % 32) 0 = mapByte tbl (streamGroup m x) := by
  have hk : x % 32 < 32 := Nat.mod_lt _ (by decide)
  rw [getD_encblk_of_lt _ _ hk, group_eq_streamGroup _ _ hk, Nat.div_add_mod]

/-- Settles O37: ENCODE is `N` blocks from the started iterator, both cursors at 0. -/
theorem encodeCallResult : Obligations.EncodeCallResult := by
  intro a b s
  have hexh : exh (blockSteps (blockCount a b) (s.started a b)) = true := exh_blockSteps (s.started a b)
  have hN : min ((a - 2) / 24) (b / 32) = blockCount a b := rfl
  simp only [hN]
  refine ⟨_, execAll_encodeCall a b s, blockSteps_lenIn _ _, blockSteps_lenOut _ _, ?_, ?_, fun m hm => ?_, fun m hm => ?_, ?_⟩
  · rw [respond_ioff, blockSteps_ioff, Nat.zero_add]
  · rw [respond_ooff, blockSteps_ooff, Nat.zero_add]
  · rw [respond_outMem, read_blockSteps, if_pos (by simp only; omega), Nat.zero_add, Nat.sub_zero, getD_encblk_eq_streamGroup]
  · rw [respond_outMem, read_blockSteps, if_neg (by simp only; omega)]
  · rw [respond_rsp, responseOf, hexh]
    simp only [blockSteps_lenIn, blockSteps_lenOut, blockSteps_ioff, blockSteps_ooff, Nat.zero_add]

/-- A response on the ports has no influence on a sequence of at least one command. -/
theorem execAll_cons_respond (i : Instr) (is : List Instr) (y : Bool) (s : State) :
    execAll (i :: is) (respond y s) = execAll (i :: is) s := by
  rw [execAll, execAll, exec_respond]

/-- `k` STEPs, then a command: the command in the state after the blocks those STEPs encode. -/
theorem execAll_steps_concat (k : Nat) (i : Instr) (s : State) :
    execAll (List.replicate k .step ++ [i]) s = exec i (blockSteps (min k (blocksLeft s)) s) := by
  rw [← exec_respond i, ← execAll_concat (execAll_steps k s)]
  cases k with
  | zero => exact (execAll_cons_respond i [] false s).symm
  | succ k => exact (execAll_cons_respond .step _ false s).symm

theorem blocksLeft_blockSteps (k : Nat) (s : State) : blocksLeft (blockSteps k s) = blocksLeft s - k := by
  simp only [blocksLeft_eq, blockSteps_lenIn, blockSteps_lenOut, blockSteps_ioff, blockSteps_ooff]
  omega

/-- RUN after some of its blocks is the RUN without them (R123 b). -/
theorem exec_run_blockSteps {k : Nat} {s : State} (hk : k ≤ blocksLeft s) : exec .run (blockSteps k s) = exec .run s := by
  rw [exec_run, exec_run, blocksLeft_blockSteps, ← blockSteps_add, Nat.add_sub_cancel' hk]

/-- Settles O39: STEPs encode a block each as long as blocks are left, and RUN is the blocks that are left. -/
theorem runIsStepsThenRem : Obligations.RunIsStepsThenRem := by
  refine ⟨fun s => ?_, fun s k hk => ?_, fun s k => ?_, fun s hs => (blocksLeft_of_cursorInv hs).2⟩
  · rw [execAll_steps_concat, Nat.min_self, exec_rem, exec_run]
  · refine ⟨_, _, (execAll_cons_respond .step _ false s).symm.trans (execAll_steps (k + 1) s), rfl, ?_⟩
    simpa only [responseOf, Bool.and_eq_true, decide_eq_true_iff] using ⟨k.succ_pos, hk⟩
  · rw [execAll_steps_concat, exec_run_blockSteps (Nat.min_le_right _ _)]

end Sys2Proof.Machine
end

section
/-! The pattern of accesses (R128, R172): its kinds, addresses and widths come from the registers. -/

namespace Sys2Proof.Machine

/-- The shapes of a block's accesses, from the two cursors alone. -/
def blockShapes (ioff ooff : Nat) : List Access :=
  (List.range 4).flatMap fun i =>
    .readIn (ioff + 6 * i) 8 :: (List.range 8).flatMap fun j => [.readAlpha 0, .writeOut (ooff + 8 * i + j)]

theorem map_shape_blockAccesses (s : State) : (blockAccesses s).map Access.shape = blockShapes s.ioff s.ooff := by
  simp only [blockAccesses, List.map_flatMap, List.map_cons, List.map_nil, Access.shape]
  rfl

/-- The shapes of a command's accesses: those of the blocks it encodes (R128). -/
theorem map_shape_accesses (i : Instr) (s : State) :
    (accesses i s).map Access.shape =
      (List.range (blocksEncoded i s)).flatMap fun k => blockShapes (s.ioff + 24 * k) (s.ooff + 32 * k) := by
  simp only [accesses_eq, List.map_flatMap, map_shape_blockAccesses, blockSteps_ioff, blockSteps_ooff]

/-- How many blocks a command encodes depends on the registers only. -/
theorem blocksEncoded_congr (i : Instr) {s t : State} (hin : t.lenIn = s.lenIn) (hout : t.lenOut = s.lenOut)
    (hi : t.ioff = s.ioff) (ho : t.ooff = s.ooff) : blocksEncoded i t = blocksEncoded i s := by
  cases i with
  | init a b => rfl
  | step => rw [blocksEncoded_step, blocksEncoded_step, avail_eq_not_exh, avail_eq_not_exh, exh_congr hin hout hi ho]
  | run => exact blocksLeft_congr hin hout hi ho
  | rem => rfl

/-- Settles O51: the shapes are a function of the two cursors and of the number of blocks. -/
theorem accessPatternIgnoresData : Obligations.AccessPatternIgnoresData := by
  intro i s s' hin hout hi ho
  rw [map_shape_accesses, map_shape_accesses, blocksEncoded_congr i hin hout hi ho, hi, ho]

end Sys2Proof.Machine
end

section
/-! No exceptions (R140), the shortfall of an under-sized output (R143), and the steps that leave the engine idle (R151, R152). -/

namespace Sys2Proof.Machine

/-- Settles O10: every command completes, and the type of faults is empty. -/
theorem noCommandRaises : Obligations.NoCommandRaises := ⟨exec_completes, step_no_fault⟩

/-- Settles O42: the blocks of the call end below `b`, and they leave 26 input bytes exactly if the input had more windows. -/
theorem shortfallIsVisible : Obligations.ShortfallIsVisible := by
  intro a b s
  have hexh : exh (blockSteps (blockCount a b) (s.started a b)) = true := exh_blockSteps (s.started a b)
  refine ⟨_, _, execAll_encodeCall a b s, rfl, hexh, ?_, fun x hx => ?_⟩
  · rw [responseOf, blockSteps_lenIn, blockSteps_ioff, blockCount, blocksIn, blocksOut]
    simp only
    omega
  · have hend : 32 * blockCount a b ≤ b := by rw [blockCount, blocksOut]; omega
    rw [respond_outMem, read_blockSteps, if_neg (by simp only; omega)]

/-- Settles O54: each of the three moves asks first whether a call is open, and takes effect when none is. -/
theorem hostPreparesWhileClosed : Obligations.HostPreparesWhileClosed := by
  intro s rest hclosed
  have hclosed' : ¬ callOpen (s.after rest) = true := Bool.eq_false_iff.1 hclosed
  refine ⟨fun tbl hs => ?_, fun off bytes hs => ?_, fun off bytes hs => ?_⟩ <;> rw [step_of_script_cons hs]
  · exact if_neg (by simp [hclosed'])
  · exact if_neg hclosed'
  · exact if_neg hclosed'

theorem step_of_script_nil {s : State} (hs : s.script = []) : step s = .next (idle s) := by
  simp only [step, nextEvent, hs]

/-- An edge with nothing presented (R151). -/
theorem clockEdge_of_nothing {p : Pins} (hrst : p.rst = false) (hvalid : p.valid = false) (busy : List Pins) (s : State) :
    clockEdge p busy s = .next (requeue busy (idle s)) := by
  simp [clockEdge, hrst, hvalid]

/-- Settles O59: without a move and at an edge with nothing presented the step is `idle`; the edges listed are put back. -/
theorem idleHoldsRegisters : Obligations.IdleHoldsRegisters := by
  refine ⟨fun s hs => step_of_script_nil hs, fun s p busy rest hs hrst hvalid => ?_⟩
  rw [step_of_script_cons hs]
  exact clockEdge_of_nothing hrst hvalid busy _

end Sys2Proof.Machine
end

section
/-! What the premises about placement give (R163), and the two resets: on its edge (R160) and of a command in progress (R161). -/

namespace Sys2Proof.Machine

/-- What is inside two buffers is inside any two that are at least as long. -/
theorem Access.InBounds.mono {x : Access} {lenIn lenOut sizeIn sizeOut : Nat} (h : x.InBounds lenIn lenOut)
    (hin : lenIn ≤ sizeIn) (hout : lenOut ≤ sizeOut) : x.InBounds sizeIn sizeOut := by
  cases x with
  | readIn off n => exact Nat.le_trans h hin
  | readAlpha v => exact h
  | writeOut off => exact Nat.lt_of_lt_of_le h hout

/-- Every address a command reads is in the `IN` region of the call (R46, R87). -/
theorem inRegion_holds_of_readIn {i : Instr} {s : State} {p : Placement} {off n x : Nat} (h : .readIn off n ∈ accesses i s)
    (hx : (Region.mk (p.inBase + off) n).Holds x) : (p.inRegion s).Holds x := by
  have hle := readIn_inside h
  obtain ⟨hge, hlt⟩ := hx
  simp only [Region.Holds, Placement.inRegion] at hge hlt ⊢
  omega

/-- Every address a command writes is in the `OUT` region of the call (R46, R87). -/
theorem outRegion_holds_of_writeOut {i : Instr} {s : State} (p : Placement) {o : Nat} (h : .writeOut o ∈ accesses i s) :
    (p.outRegion s).Holds (p.outBase + o) :=
  ⟨Nat.le_add_right _ _, Nat.add_lt_add_left (writeOut_inside h) _⟩

/-- Settles O47: the accesses are inside the lengths (`accessesStayInside`), so what is written is in the `OUT` region, which the
others do not meet. -/
theorem premisesKeepAccessesApart : Obligations.PremisesKeepAccessesApart := by
  obtain ⟨hinside, -, -⟩ := accessesStayInside
  refine ⟨fun i s sizeIn sizeOut ⟨hin, hout⟩ x hx => (hinside i s x hx).mono hin hout, fun i s p ⟨hapart, hothers⟩ o ho => ?_⟩
  have hwritten := outRegion_holds_of_writeOut p ho
  exact ⟨fun off n hread hx => hapart _ hwritten (inRegion_holds_of_readIn hread hx), fun r hr => hothers r hr _ hwritten⟩

/-- Settles O56: reset is asked for before anything presented (R145). -/
theorem resetEdge : Obligations.ResetEdge := by
  intro s p busy rest hs hrst
  rw [step_of_script_cons hs]
  exact if_pos hrst

/-- The step that aborts a command: it needs a reset among the edges that pass, and the first one decides (R161). -/
theorem step_of_aborted {s : State} {c : CmdPort} {busy : List Pins} {rest : List HostMove}
    (hs : s.script = .edge ⟨false, true, c⟩ busy :: rest) (hrst : ∃ q ∈ busy, q.rst = true) :
    ∃ u later, FirstReset busy later ∧ exec (decode c) (s.after rest) = .next u ∧
      step s = .next (requeue later (abortCommand (s.after rest) u)) := by
  obtain ⟨u, hu⟩ := exec_completes (decode c) (s.after rest)
  have hstep : step s = acceptCommand c busy (s.after rest) := step_of_script_cons hs
  cases hd : busy.dropWhile (fun p => !p.rst) with
  | nil =>
    obtain ⟨q, hq, hqrst⟩ := hrst
    rw [(dropWhile_nil_iff busy).1 hd q hq] at hqrst
    cases hqrst
  | cons q later =>
    refine ⟨u, later, firstReset_of_dropWhile hd, hu, ?_⟩
    simp only [hstep, acceptCommand, hd, hu]

/-- Each byte of `OUT` after an aborted command is the one before it or the one the command would have left (R161). -/
theorem read_abortCommand (s u : State) (x : Nat) :
    (abortCommand s u).outMem.read x = s.outMem.read x ∨ (abortCommand s u).outMem.read x = u.outMem.read x := by
  rw [abortCommand_outMem, Memory.read_drawBytes]
  split
  · exact .inr rfl
  · exact .inl rfl

/-- An aborted command leaves every byte that it was not going to write (R161). -/
theorem read_abortCommand_of_not_written {i : Instr} {s u : State} {x : Nat} (h : exec i s = .next u)
    (hx : .writeOut x ∉ accesses i s) : (abortCommand s u).outMem.read x = s.outMem.read x := by
  rcases read_abortCommand s u x with hold | hnew
  · exact hold
  · exact hnew.trans (read_outMem_of_not_written h hx)

/-- The bytes outside the windows of a STEP that yields and of a RUN are not written (R120, R124); INIT and REM write none. -/
theorem not_written_outside_windows {i : Instr} {s : State} {x : Nat}
    (hstep : i = .step → avail s = false ∨ x < s.ooff ∨ s.ooff + 32 ≤ x)
    (hrun : i = .run → x < s.ooff ∨ s.ooff + 32 * blocksLeft s ≤ x) : .writeOut x ∉ accesses i s := by
  rw [writeOut_mem_accesses]
  rintro ⟨hge, hlt⟩
  cases i with
  | init a b => exact absurd hlt (Nat.not_lt.2 hge)
  | step =>
    have hone := blocksEncoded_step_le s
    rcases hstep rfl with hnone | hout
    · rw [blocksEncoded_step, hnone] at hlt
      exact absurd hlt (Nat.not_lt.2 hge)
    · omega
  | run =>
    have hblocks : blocksEncoded .run s = blocksLeft s := rfl
    have hout := hrun rfl
    omega
  | rem => exact absurd hlt (Nat.not_lt.2 hge)

/-- In a state of the invariant the windows of a RUN are `OUT[32*n0 .. 32*N-1]` (R90, R124). -/
theorem run_windows_of_cursorInv {s : State} (h : CursorInv s) :
    s.ooff = 32 * (s.ioff / 24) ∧ s.ooff + 32 * blocksLeft s = 32 * blockCount s.lenIn s.lenOut := by
  obtain ⟨hdone, hleft⟩ := blocksLeft_of_cursorInv h
  obtain ⟨n, hi, ho, -⟩ := h
  omega

/-- Settles O58: the step is `abortCommand`, whose bytes of `OUT` are old or new, and old where the command writes none. -/
theorem resetAbortsCommand : Obligations.ResetAbortsCommand := by
  intro s c busy rest hs hrst
  obtain ⟨u, later, ⟨before, q, hbusy, hbefore, hq⟩, hu, hstep⟩ := step_of_aborted hs hrst
  refine ⟨u, _, hu, hstep, rfl, rfl, rfl, rfl, rfl, rfl, rfl, ⟨before, q, later, hbusy, hbefore, hq, rfl⟩, rfl,
    read_abortCommand (s.after rest) u, fun x hx_step hx_run => ?_, run_windows_of_cursorInv⟩
  exact read_abortCommand_of_not_written hu (not_written_outside_windows hx_step hx_run)

end Sys2Proof.Machine
end
